-- ==== Sys2Proof/Word.lean ====
section
/-! DEFINITION. The word and byte types (R8): registers, the PC and addresses are 32-bit unsigned words. -/

namespace Sys2Proof

/-- A 32-bit word (R8, R13, R21). Arithmetic on it is modulo `2^32` (R8). -/
abbrev Word := BitVec 32

/-- One byte of memory (R35). -/
abbrev Byte := BitVec 8

end Sys2Proof
end

