-- ==== Sys2Proof/Config.lean ====
section
/-! DEFINITION. What is fixed for one machine: the spec's OPEN parameters (R6) as a record of plain data, its fixed
numbers, and the two things the spec leaves wholly open, as constants without a body. -/

namespace Sys2Proof

/-- The byte-order tag of a memory (R6, R30; C2: the absolute reading). -/
inductive ByteOrder where
  | little
  | big
  deriving DecidableEq, Repr

/-- How `slt` compares (R6, R112, D4). -/
inductive SltCompare where
  | signed
  | unsigned
  deriving DecidableEq, Repr

/-- The executor's capability tag (R31): which engine it was built with. -/
inductive Engine where
  | interpreter
  | jit
  deriving DecidableEq, Repr

/-- The parameters the spec keeps OPEN (R6). They stand in `State` as plain data that nothing writes, so a statement
about every state holds for every value of them. `ByteOrder` is not among them: it belongs to the memory (R30), and
`assemble` sets it. -/
structure Params where
  /-- `SltCompare` (D4). -/
  sltCompare : SltCompare
  /-- `HostOrder` (D18): decides only whether a JIT may be built. -/
  hostOrder : ByteOrder
  /-- `InitGPR` (R20, D9). -/
  initGPR : Vector Word 32
  /-- `InitPC` of the executor made before any program (R25, D10). -/
  initPcEmpty : Word
  /-- `InitPC` of an executor made from a program (R25, D10). -/
  initPcLoaded : Word
  /-- `ExecBound` (R104, D15). -/
  execBound : Nat
  deriving DecidableEq, Repr

/-- The spec's defaults (R6, R20, R25, D4, D9, D10), with the values it names no default for chosen here.
DESIGN CHOICE (logs 2 to 6). -/
def Params.default : Params where
  sltCompare := .signed
  hostOrder := .little
  initGPR := Vector.replicate 32 0#32
  initPcEmpty := 0x00000000#32
  initPcLoaded := 0x00400000#32
  execBound := 1024

namespace Config

/-- The reserved boundary (R6, R51): a step at a PC below it does nothing. -/
def reservedBoundary : Nat := 0x1000

/-- The last word address (R24, R98). -/
def topWord : Word := 0xFFFFFFFC#32

/-- The size of the address space in bytes (R35). -/
def addressSpace : Nat := 0x100000000

/-- The host page size (R6, R46). -/
def pageSize : Nat := 4096

/-- The number of host pages (R44). -/
def pageCount : Nat := 0x100000

/-- The longest source line in characters (R6, R76). -/
def lineLimit : Nat := 8192

/-- `DisasmText` (R74, D30): the spec gives the disassembler's text no format, so the printer has no body. -/
opaque disasmText : Word → String

/-- Which words other than zero count as "near-zero" in the display window (R142): the spec does not define it (N9). -/
opaque nearZero : Word → Bool

end Config

end Sys2Proof
end

