-- ==== Sys2Proof/Syntax.lean ====
section
/-! DEFINITION. The instruction set as data (R64): the closed set of five R-format instructions, each with one operand
record, and the segments an assembled program consists of. -/

namespace Sys2Proof

/-- A register index, 0 to 31 (R8, R13). -/
abbrev Reg := Fin 32

/-- The R-format operand record (R64). Every combination of the four fields is valid. -/
structure ROps where
  rd : Reg
  rs : Reg
  rt : Reg
  /-- Carried, and read by no instruction (R60, R107). -/
  shamt : Fin 32
  deriving DecidableEq, Repr

/-- The five mnemonics (R2, R62). -/
inductive Mnemonic where
  | and
  | or
  | add
  | sub
  | slt
  deriving DecidableEq, Repr

/-- The instructions (R2, R64), in the opcode table's order. -/
inductive Instr where
  | and (o : ROps)
  | or (o : ROps)
  | add (o : ROps)
  | sub (o : ROps)
  | slt (o : ROps)
  deriving DecidableEq, Repr

/-- The mnemonics, each once. -/
def Mnemonic.all : List Mnemonic := [.and, .or, .add, .sub, .slt]

/-- The instruction a mnemonic and an operand record make. -/
def Mnemonic.build : Mnemonic → ROps → Instr
  | .and, o => .and o
  | .or, o => .or o
  | .add, o => .add o
  | .sub, o => .sub o
  | .slt, o => .slt o

/-- The mnemonic of an instruction. -/
def Instr.mnemonic : Instr → Mnemonic
  | .and _ => .and
  | .or _ => .or
  | .add _ => .add
  | .sub _ => .sub
  | .slt _ => .slt

/-- The operand record of an instruction. -/
def Instr.ops : Instr → ROps
  | .and o => o
  | .or o => o
  | .add o => o
  | .sub o => o
  | .slt o => o

/-- The two segment classes (R49, R50). -/
inductive SegClass where
  | text
  | data
  deriving DecidableEq, Repr

/-- A segment: a run of bytes at a base address, of one class (R37, glossary). -/
structure Segment where
  cls : SegClass
  base : Word
  bytes : List Byte
  deriving DecidableEq, Repr

/-- The first address after a segment, as a number: it may be `2^32` or more. -/
def Segment.stop (g : Segment) : Nat := g.base.toNat + g.bytes.length

end Sys2Proof
end

