-- ==== Sys2Proof/WellFormed.lean ====
section
/-! DEFINITION. The checks on data from outside. An `Instr` needs none: every combination of its fields is valid (R64),
and their types hold no other value. What can be ill-formed is a quadruple of operand NUMBERS before it becomes an
operand record, a parameter record, and a list of segments. -/

namespace Sys2Proof

/-- The operand numbers fit their 5-bit fields (R63, R64). -/
def operandsWf (rd rs rt shamt : Nat) : Bool :=
  decide (rd < 32) && decide (rs < 32) && decide (rt < 32) && decide (shamt < 32)

/-- The operand record of four numbers, where they fit. -/
def ROps.ofNats? (rd rs rt shamt : Nat) : Option ROps :=
  if h : rd < 32 ∧ rs < 32 ∧ rt < 32 ∧ shamt < 32 then
    some ⟨⟨rd, h.1⟩, ⟨rs, h.2.1⟩, ⟨rt, h.2.2.1⟩, ⟨shamt, h.2.2.2⟩⟩
  else none

/-- `ExecBound >= 1` (D15). -/
def Params.wf (p : Params) : Bool := decide (1 ≤ p.execBound)

/-- The legal base addresses of a class (R49, R50, R81). -/
def SegClass.inRange : SegClass → Nat → Bool
  | .text, a => decide (0x00400000 ≤ a) && decide (a ≤ 0x0fffffff)
  | .data, a => decide (0x10000000 ≤ a) && decide (a ≤ 0x7fffffff)

/-- The segment's base address lies in its class's range (R81). -/
def Segment.baseOk (g : Segment) : Bool := g.cls.inRange g.base.toNat

/-- The segment ends at or below `0xFFFFFFFF` (R38). -/
def Segment.fits (g : Segment) : Bool := decide (g.stop ≤ Config.addressSpace)

/-- Some address lies in both segments' ranges (R38). -/
def Segment.overlaps (g h : Segment) : Bool :=
  decide (max g.base.toNat h.base.toNat < min g.stop h.stop)

/-- No two segments of the list overlap (R38). -/
def segmentsDisjoint : List Segment → Bool
  | [] => true
  | g :: gs => gs.all (fun h => !g.overlaps h) && segmentsDisjoint gs

/-- A segment list a memory can be built from (R37, R38). -/
def programWf (gs : List Segment) : Bool := gs.all Segment.fits && segmentsDisjoint gs

end Sys2Proof
end

