-- ==== Sys2Proof/Decode.lean ====
section
/-! DEFINITION. The codec (30_encoding.md): the byte order of a word (R39, R40), the one funct table (R62, R70), the
decoder (R66) and the encoder (R65). -/

namespace Sys2Proof

/-! ## Bytes and words -/

/-- The word whose four bytes, from the lowest address up, are `b0 b1 b2 b3` (R39). PRESUMED by the spec itself: the
byte layout is the standard one (GK2, log 12). -/
def joinBytes (order : ByteOrder) (b0 b1 b2 b3 : Byte) : Word :=
  match order with
  | .little => b3 ++ b2 ++ b1 ++ b0
  | .big => b0 ++ b1 ++ b2 ++ b3

/-- The four bytes of a word, from the lowest address up (R40). -/
def splitWord (order : ByteOrder) (v : Word) : List Byte :=
  let b := fun lo => v.extractLsb' lo 8
  match order with
  | .little => [b 0, b 8, b 16, b 24]
  | .big => [b 24, b 16, b 8, b 0]

/-! ## Fields (R60) -/

/-- `w[31:26]`. -/
def opcodeField (w : Word) : BitVec 6 := w.extractLsb' 26 6

/-- `w[5:0]`. -/
def functField (w : Word) : BitVec 6 := w.extractLsb' 0 6

/-- The 5-bit field of `w` whose lowest bit is `lo`, as an index (R63). -/
def indexField (lo : Nat) (w : Word) : Fin 32 := (w.extractLsb' lo 5).toFin

/-- The operand record held by a word (R60, R66). -/
def operandFields (w : Word) : ROps where
  rs := indexField 21 w
  rt := indexField 16 w
  rd := indexField 11 w
  shamt := indexField 6 w

/-! ## The funct table (R62, R70) -/

/-- The funct code of each mnemonic (R62). -/
def Mnemonic.funct : Mnemonic → BitVec 6
  | .and => 0x24#6
  | .or => 0x25#6
  | .add => 0x20#6
  | .sub => 0x22#6
  | .slt => 0x2a#6

/-- The mnemonic of a funct code, read off the same table (R70). -/
def mnemonicOfFunct (f : BitVec 6) : Option Mnemonic :=
  Mnemonic.all.find? fun m => m.funct == f

/-! ## Decoding -/

/-- Why bytes hold no instruction. -/
inductive DecodeError where
  /-- Fewer than four bytes (R59). -/
  | truncated
  /-- `w[31:26]` is not 0 (R67). -/
  | opcode (op : BitVec 6)
  /-- `w[5:0]` is none of the five funct codes (R67). -/
  | funct (f : BitVec 6)
  deriving DecidableEq, Repr

/-- Decoding of one word, with the reason where it fails (R66, R67). No field but opcode and funct is checked: any
`shamt` is accepted and kept (R69). -/
def decodeWord (w : Word) : Except DecodeError Instr :=
  if opcodeField w ≠ 0#6 then .error (.opcode (opcodeField w))
  else
    match mnemonicOfFunct (functField w) with
    | some m => .ok (m.build (operandFields w))
    | none => .error (.funct (functField w))

/-- The spec's `decode` (R66). -/
def decode (w : Word) : Option Instr :=
  match decodeWord w with
  | .ok i => some i
  | .error _ => none

/-- Decoding of bytes as they lie in memory: exactly four are consumed (R59), in the given byte order (R41). -/
def decodeBytes (order : ByteOrder) (bs : List Byte) : Except DecodeError (Instr × List Byte) :=
  match bs with
  | b0 :: b1 :: b2 :: b3 :: rest =>
    match decodeWord (joinBytes order b0 b1 b2 b3) with
    | .ok i => .ok (i, rest)
    | .error e => .error e
  | _ => .error .truncated

/-! ## Encoding -/

/-- The word of a mnemonic and its operands (R65): the fields side by side, the opcode field highest. -/
def encodeFields (m : Mnemonic) (o : ROps) : Word :=
  0#6 ++ (BitVec.ofFin o.rs : BitVec 5) ++ (BitVec.ofFin o.rt : BitVec 5) ++ (BitVec.ofFin o.rd : BitVec 5)
    ++ (BitVec.ofFin o.shamt : BitVec 5) ++ m.funct

/-- The spec's `encode` (R65). -/
def encode (i : Instr) : Word := encodeFields i.mnemonic i.ops

/-- The bytes of an instruction as the assembler appends them (R89). -/
def encodeBytes (order : ByteOrder) (i : Instr) : List Byte := splitWord order (encode i)

/-- What the decoder reads from a table word of `nbits` bits: the word's bytes are laid out in memory and decoded. -/
def decodeTableWord (nbits w : Nat) : Option Instr :=
  match decodeBytes .little (splitWord .little (BitVec.ofNat 32 (w % 2 ^ nbits))) with
  | .ok (i, _) => some i
  | .error _ => none

end Sys2Proof
end

