-- ==== Sys2Proof/Machine/State.lean ====
section
/-! DEFINITION. The machine's state as plain data, the ways a step can stop, and the state after reset. -/

namespace Sys2Proof.Machine

/-- Memory: the bytes that are not zero, by address, addresses strictly rising (`Memory.wf`). An address that is not
listed reads as zero (R35, R36). -/
abbrev Memory := List Host.Cell

/-- The run-loop (R32). -/
structure RunLoop where
  /-- A run-loop is active; at most one is (R129). -/
  running : Bool
  /-- A stop was requested and not yet observed (R130). -/
  stopRequest : Bool
  /-- The engine the last `run(allow_jit)` selected (R133); not architectural (R101). -/
  engine : Engine
  deriving DecidableEq, Repr

/-- Everything the spec gives the machine. -/
structure State where
  /-- `x[0..31]` (R13). -/
  regs : Vector Word 32
  /-- The program counter (R21). -/
  pc : Word
  /-- The byte memory (R29, R35). -/
  mem : Memory
  /-- The memory's byte-order tag (R30). -/
  byteOrder : ByteOrder
  /-- The executor's engine tag (R31). -/
  engine : Engine
  /-- The run-loop (R32). -/
  loop : RunLoop
  /-- The clean-after-reset flag (R33, R134). -/
  clean : Bool
  /-- The segments of the last successful `assemble`, which `reset()` rebuilds from (R133). -/
  program : Option (List Segment)
  /-- The spec's OPEN parameters (R6). -/
  params : Params
  deriving DecidableEq, Repr

/-- The outcomes that end a run (R119). Each writes no state (R121, R123). -/
inductive Fault where
  /-- The source's execution error `ExecError(DecodeFailure, (pc, w))`: raised by the step when the fetched word does
  not decode (R97, R120). The spec's own outcome, so neither safe nor unsafe. -/
  | decodeFailure (pc w : Word)
  /-- `Fault(MisalignedFetch, pc)`: raised by the step at `pc >= 0x1000` with `pc mod 4 != 0` (R96). Safe: the source is
  silent and the spec stops (D6). -/
  | misalignedFetch (pc : Word)
  /-- `Fault(PcOverflow, pc)`: raised by the step at `pc = 0xFFFFFFFC` when the word decodes (R98). Safe: the source is
  silent and the spec stops (D5). -/
  | pcOverflow (pc : Word)
  deriving DecidableEq, Repr

/-- Why the model gives an instruction no meaning. Every instruction has one, so no step answers a refusal. -/
inductive Refusal where
  /-- Raised by an arm of `exec` that has no meaning yet. Safe. No arm does. -/
  | notModelled (mnemonic : String)
  deriving DecidableEq, Repr

/-- The machine before any program is assembled (R144): memory all zero, the run-loop not running, the clean flag true
(R143). The registers, the PC, the byte order and the engine have the values of logs 1 to 6 (DESIGN CHOICE: the spec
keeps them OPEN). -/
def State.reset : State where
  regs := Params.default.initGPR
  pc := Params.default.initPcEmpty
  mem := []
  byteOrder := .little
  engine := .interpreter
  loop := { running := false, stopRequest := false, engine := .interpreter }
  clean := true
  program := none
  params := Params.default

end Sys2Proof.Machine
end

