-- ==== Sys2Proof/Machine/Ops.lean ====
section
/-! DEFINITION. The named operations over memory and registers, each once. There is no operation that takes an exception
and none that returns from one: nothing is saved and nothing is entered when a step stops (R128), and no instruction
returns from anything (R132). -/

namespace Sys2Proof.Machine

/-! ## Memory (20_memory.md) -/

/-- The canonical form from address `lo` on: addresses strictly rising and below `2^32`, no entry zero. -/
def Memory.wfFrom : Nat → Memory → Bool
  | _, [] => true
  | lo, (k, v) :: m =>
    decide (lo ≤ k) && decide (k < Config.addressSpace) && decide (v ≠ 0#8) && Memory.wfFrom (k + 1) m

/-- The canonical form of a memory, so that equal memories are equal lists. -/
def Memory.wf (m : Memory) : Bool := Memory.wfFrom 0 m

/-- One byte (R35): zero where nothing is listed (gaps read as zero). -/
def Memory.read : Memory → Nat → Byte
  | [], _ => 0#8
  | (k, v) :: m, a => if a = k then v else Memory.read m a

/-- Writing one byte; writing zero removes the entry, since an unlisted address reads as zero. -/
def Memory.write : Memory → Nat → Byte → Memory
  | [], a, b => if b = 0#8 then [] else [(a, b)]
  | (k, v) :: m, a, b =>
    if a < k then (if b = 0#8 then (k, v) :: m else (a, b) :: (k, v) :: m)
    else if a = k then (if b = 0#8 then m else (a, b) :: m)
    else (k, v) :: Memory.write m a b

/-- Writing a run of bytes upwards from `a`. -/
def Memory.writeBytes (m : Memory) (a : Nat) : List Byte → Memory
  | [] => m
  | b :: bs => Memory.writeBytes (m.write a b) (a + 1) bs

/-- The `n` bytes from `a` upwards, as stored (R42). -/
def Memory.readBytes (m : Memory) (a n : Nat) : List Byte := (List.range n).map fun i => Memory.read m (a + i)

/-- `MemRead(a, 4)` (R39). -/
def Memory.readWord (m : Memory) (order : ByteOrder) (a : Nat) : Word :=
  joinBytes order (Memory.read m a) (Memory.read m (a + 1)) (Memory.read m (a + 2)) (Memory.read m (a + 3))

/-- `MemWrite(a, 4, v)` (R40). No instruction uses it (R45); the host does. -/
def Memory.writeWord (m : Memory) (order : ByteOrder) (a : Nat) (v : Word) : Memory :=
  m.writeBytes a (splitWord order v)

/-! ## Registers (10_state.md) -/

/-- `x[r]` (R9, R13). -/
def State.reg (s : State) (r : Reg) : Word := s.regs[r]

/-- `x[r] <- v` (R9). No index is special: register 0 is written like any other (R17). -/
def State.setReg (s : State) (r : Reg) (v : Word) : State :=
  { s with regs := s.regs.set r.val v r.isLt }

/-- `pc <- v` (R9). -/
def State.setPc (s : State) (v : Word) : State := { s with pc := v }

/-- The end of every successful instruction: the result goes to `rd` and the PC advances by 4; nothing else changes
(R99). -/
def State.retire (s : State) (rd : Reg) (v : Word) : State := (s.setReg rd v).setPc (s.pc + 4#32)

/-! ## Outcomes -/

/-- The source's own execution error, as against a fault the spec added (R10, R123). -/
def Fault.isExecError : Fault → Bool
  | .decodeFailure _ _ => true
  | .misalignedFetch _ => false
  | .pcOverflow _ => false

/-- The PC an outcome records (R119). -/
def Fault.pc : Fault → Word
  | .decodeFailure pc _ => pc
  | .misalignedFetch pc => pc
  | .pcOverflow pc => pc

end Sys2Proof.Machine
end

