-- ==== Sys2Proof/Machine/Operands.lean ====
section
/-! DEFINITION. The one operand form: three register fields (R63), and the register names of the host and the assembler
(R14 to R16). -/

namespace Sys2Proof.Machine

/-- The first source operand, read before the result is written (R100). -/
def State.srcA (s : State) (o : ROps) : Word := s.reg o.rs

/-- The second source operand, read before the result is written (R100). -/
def State.srcB (s : State) (o : ROps) : Word := s.reg o.rt

/-- Text as a list of characters. -/
abbrev Text := List Char

/-- The value of a digit character in any base up to 16 (R78: hexadecimal digits of either case). -/
def digitValue (c : Char) : Option Nat :=
  if '0' ≤ c ∧ c ≤ '9' then some (c.toNat - '0'.toNat)
  else if 'a' ≤ c ∧ c ≤ 'f' then some (c.toNat - 'a'.toNat + 10)
  else if 'A' ≤ c ∧ c ≤ 'F' then some (c.toNat - 'A'.toNat + 10)
  else none

/-- The value of digits after those that gave `acc`. -/
def digitsFrom (base : Nat) : Nat → Text → Option Nat
  | acc, [] => some acc
  | acc, c :: cs =>
    match digitValue c with
    | some d => if d < base then digitsFrom base (acc * base + d) cs else none
    | none => none

/-- The value of a run of one or more digits. -/
def parseDigits (base : Nat) (cs : Text) : Option Nat :=
  if cs.isEmpty then none else digitsFrom base 0 cs

/-- The register names (R14). PRESUMED by the spec itself: the indices are the standard MIPS numbering (GK1, D11,
log 11). `$v1`, `$fp` and every other name are absent (R16). -/
def registerNames : List (Text × Reg) :=
  [(['$', 'z', 'e', 'r', 'o'], 0), (['$', 'a', 't'], 1), (['$', 'v', '0'], 2)] ++
  [(['$', 'a', '0'], 4), (['$', 'a', '1'], 5), (['$', 'a', '2'], 6), (['$', 'a', '3'], 7)] ++
  [(['$', 't', '0'], 8), (['$', 't', '1'], 9), (['$', 't', '2'], 10), (['$', 't', '3'], 11)] ++
  [(['$', 't', '4'], 12), (['$', 't', '5'], 13), (['$', 't', '6'], 14), (['$', 't', '7'], 15)] ++
  [(['$', 's', '0'], 16), (['$', 's', '1'], 17), (['$', 's', '2'], 18), (['$', 's', '3'], 19)] ++
  [(['$', 's', '4'], 20), (['$', 's', '5'], 21), (['$', 's', '6'], 22), (['$', 's', '7'], 23)] ++
  [(['$', 't', '8'], 24), (['$', 't', '9'], 25), (['$', 'k', '0'], 26), (['$', 'k', '1'], 27)] ++
  [(['$', 'g', 'p'], 28), (['$', 's', 'p'], 29), (['$', 's', '8'], 30), (['$', 'r', 'a'], 31)]

/-- A register index from a number below 32 (R15, R87). -/
def registerOfNumber (n : Nat) : Option Reg := if h : n < 32 then some ⟨n, h⟩ else none

/-- The numeric form `$N`, `N` decimal and below 32 (R15, D24). -/
def parseNumericRegister : Text → Option Reg
  | '$' :: ds => (parseDigits 10 ds).bind registerOfNumber
  | _ => none

/-- A register operand, by name or by number (R14, R15, R87). -/
def parseRegister (t : Text) : Option Reg :=
  match registerNames.lookup t with
  | some r => some r
  | none => parseNumericRegister t

end Sys2Proof.Machine
end

