-- ==== Sys2Proof/Machine/Flags.lean ====
section
/-! DEFINITION. Conditions. There is no flags register: a condition is written directly into a destination register
(R26). -/

namespace Sys2Proof.Machine

/-- The comparison of `slt` under the parameter `SltCompare` (R112, R115). -/
def lessThan (c : SltCompare) (a b : Word) : Bool :=
  match c with
  | .signed => decide (a.toInt < b.toInt)
  | .unsigned => decide (a.toNat < b.toNat)

/-- A condition as the full word 1 or 0 (R112). -/
def conditionWord (p : Bool) : Word := if p then 1#32 else 0#32

end Sys2Proof.Machine
end

