-- ==== Sys2Proof/Machine/Alu.lean ====
section
/-! DEFINITION. The R-format ALU family (41_rtype_alu.md): the whole instruction set. -/

namespace Sys2Proof.Machine

/-- What the five instructions share (R107): two sources, one result, no outcome of its own. -/
def retireResult (o : ROps) (v : Word) (s : State) : Host.Outcome State Fault Refusal :=
  .next (s.retire o.rd v)

/-- `and rd, rs, rt` (R108, R116). -/
def execAnd (o : ROps) (s : State) : Host.Outcome State Fault Refusal :=
  retireResult o (s.srcA o &&& s.srcB o) s

/-- `or rd, rs, rt` (R109, R116). -/
def execOr (o : ROps) (s : State) : Host.Outcome State Fault Refusal :=
  retireResult o (s.srcA o ||| s.srcB o) s

/-- `add rd, rs, rt`, modulo `2^32`, no overflow trap (R110, R113; D2, log 8). -/
def execAdd (o : ROps) (s : State) : Host.Outcome State Fault Refusal :=
  retireResult o (s.srcA o + s.srcB o) s

/-- `sub rd, rs, rt`, modulo `2^32`, no overflow trap; the minuend is `rs` (R111, R114; D3, log 8). -/
def execSub (o : ROps) (s : State) : Host.Outcome State Fault Refusal :=
  retireResult o (s.srcA o - s.srcB o) s

/-- `slt rd, rs, rt` (R112, R115; D4, log 2). -/
def execSlt (o : ROps) (s : State) : Host.Outcome State Fault Refusal :=
  retireResult o (conditionWord (lessThan s.params.sltCompare (s.srcA o) (s.srcB o))) s

end Sys2Proof.Machine
end

