-- ==== Sys2Proof/Machine/Fetch.lean ====
section
/-! DEFINITION. The first half of a step (40_step_cycle.md): its checks in their order, the fetch and the decoding. -/

namespace Sys2Proof.Machine

/-- What the checks, the fetch and the decoding of a step come to. -/
inductive Issue where
  /-- The PC is in the reserved region: the step does nothing and succeeds (R95). -/
  | reserved
  /-- The step stops (R96 to R98). -/
  | stop (f : Fault)
  /-- The instruction to execute (R99). -/
  | run (i : Instr)
  deriving DecidableEq, Repr

/-- The word at the PC, from the current memory in its byte order (R94, R41, R57). -/
def fetchWord (s : State) : Word := s.mem.readWord s.byteOrder s.pc.toNat

/-- The checks of a step in the order of R93 and R127: reserved region, misaligned PC, decode failure, PC overflow. -/
def issue (s : State) : Issue :=
  if s.pc.toNat < Config.reservedBoundary then .reserved
  else if s.pc.toNat % 4 ≠ 0 then .stop (.misalignedFetch s.pc)
  else
    match decode (fetchWord s) with
    | none => .stop (.decodeFailure s.pc (fetchWord s))
    | some i => if s.pc = Config.topWord then .stop (.pcOverflow s.pc) else .run i

/-- A PC a step can execute at: aligned, in `0x1000 .. 0xFFFFFFF8` (R99). -/
def executablePc (pc : Word) : Bool :=
  decide (Config.reservedBoundary ≤ pc.toNat) && decide (pc.toNat % 4 = 0) && decide (pc ≠ Config.topWord)

/-- The state with the word `w` where the next step fetches: at the PC, or, where no instruction executes at this PC, at
the lowest TEXT address with the PC moved there, as the host does before a run (R146, log 4). -/
def placeFetchWord (s : State) (w : Word) : State :=
  let pc := if executablePc s.pc then s.pc else 0x00400000#32
  { s with pc := pc, mem := s.mem.writeWord s.byteOrder pc.toNat w }

end Sys2Proof.Machine
end

