-- ==== Sys2Proof/Machine/Step.lean ====
section
/-! DEFINITION. One step (R93), the same for the interpreter and the JIT (R101). -/

namespace Sys2Proof.Machine

/-- The step: checks, fetch and decode, then the instruction (R93). A step in the reserved region succeeds and leaves the
state as it is (R95: the spec's `NoOp`). -/
def step (s : State) : Host.Outcome State Fault Refusal :=
  match issue s with
  | .reserved => .next s
  | .stop f => .fault f
  | .run i => exec i s

/-- The state with a table word of `nbits` bits placed where the next step fetches. -/
def State.withFetchWord (s : State) (nbits w : Nat) : State :=
  placeFetchWord s (BitVec.ofNat 32 (w % 2 ^ nbits))

end Sys2Proof.Machine
end

