-- ==== Sys2Proof/Machine/Notify.lean ====
section
/-! DEFINITION. The state notification and the disassembler (R74, R142): display only, they change no state. -/

namespace Sys2Proof.Machine

/-- `disassemble` (R74): total; its text is the parameter `DisasmText`. -/
def disassemble (w : Word) : String := Config.disasmText w

/-- The word at an address, for display. -/
def State.wordAt (s : State) (a : Nat) : Word := s.mem.readWord s.byteOrder a

/-- A zero or near-zero word (R142); which words are near-zero is open (N9). -/
def isNearZero (w : Word) : Bool := decide (w = 0#32) || Config.nearZero w

/-- The scan backward from `a`: the lowest address of the window, where `seen` near-zero words in a row lie just above
`a` (R142). -/
def scanBack (s : State) : (fuel : Nat) → (a seen : Nat) → Nat
  | 0, a, _ => a
  | n + 1, a, seen =>
    if a ≤ 4096 ∨ 16 ≤ seen then a
    else scanBack s n (a - 4) (if isNearZero (s.wordAt (a - 4)) then seen + 1 else 0)

/-- The scan forward from `a`: the first address after the window (R142). -/
def scanForward (s : State) : (fuel : Nat) → (a seen : Nat) → Nat
  | 0, a, _ => a
  | n + 1, a, seen =>
    if 0x10000000 ≤ a ∨ 256 ≤ seen then a
    else scanForward s n (a + 4) (if isNearZero (s.wordAt a) then seen + 1 else 0)

/-- The addresses of the disassembly window, in order: both scans start at the page containing the PC (R142, log 21). -/
def windowAddresses (s : State) : List Nat :=
  let page := s.pc.toNat / Config.pageSize * Config.pageSize
  let lo := scanBack s (page / 4) page 0
  let hi := scanForward s (0x10000000 / 4) page 0
  (List.range ((hi - lo) / 4)).map fun k => lo + 4 * k

/-- The notification's contents (R142). -/
structure Notification where
  /-- The full 32-register snapshot. -/
  regs : Vector Word 32
  pc : Word
  /-- The disassembly window: address and text, sorted by address. -/
  window : List (Nat × String)
  /-- Whether the run-loop is active. -/
  running : Bool
  /-- Whether the architectural state has been mutated since the last reset. -/
  mutated : Bool
  /-- Whether the executor is JIT-capable. -/
  jitCapable : Bool
  deriving DecidableEq, Repr

/-- The notification of a state (R142). -/
def notification (s : State) : Notification where
  regs := s.regs
  pc := s.pc
  window := (windowAddresses s).map fun a => (a, disassemble (s.wordAt a))
  running := s.loop.running
  mutated := !s.clean
  jitCapable := decide (s.engine = .jit)

end Sys2Proof.Machine
end

