-- ==== Sys2Proof/Machine/Assembler.lean ====
section
/-! DEFINITION. The assembler's instruction and directive grammar (30_encoding.md section 6): source text to segments. -/

namespace Sys2Proof.Machine

/-- The assembler's errors (R91). -/
inductive AsmError where
  | lineTooLong
  | trailingToken
  | baseAddressOutOfRange
  | segmentRequired
  | invalidToken
  | invalidRegisterName
  | invalidNumberOfOperands
  | unknownInstruction
  deriving DecidableEq, Repr

/-! ## Text -/

/-- White space within a line: blank, tab, carriage return. DESIGN CHOICE (log 20). -/
def isBlank (c : Char) : Bool := c == ' ' || c == '\t' || c == '\r'

/-- A text without the white space around it. -/
def trim (t : Text) : Text := ((t.dropWhile isBlank).reverse.dropWhile isBlank).reverse

/-- The pieces of a text between the characters that meet `p`; `n` such characters give `n + 1` pieces. -/
def splitWhere (p : Char → Bool) : Text → List Text
  | [] => [[]]
  | c :: cs =>
    if p c then [] :: splitWhere p cs
    else
      match splitWhere p cs with
      | [] => [[c]]
      | t :: ts => (c :: t) :: ts

/-- The lines of a source text; the terminator is the newline character. DESIGN CHOICE (log 20). -/
def sourceLines (src : Text) : List Text := splitWhere (· == '\n') src

/-- The whitespace-delimited tokens of a text (R77). -/
def tokens (t : Text) : List Text := (splitWhere isBlank t).filter fun w => !w.isEmpty

/-- The comma-separated operands of a text, each trimmed (R86, D25). -/
def operandPieces (t : Text) : List Text := (splitWhere (· == ',') t).map trim

/-- A line without its comment and the white space around it (R75). -/
def stripLine (raw : Text) : Text := trim (raw.takeWhile fun c => c != '#')

/-- A 32-bit unsigned number: decimal, or prefixed `0x`, `0o`, `0b` in lower case (R78, D23). -/
def parseNumber (t : Text) : Option Word :=
  let n :=
    match t with
    | '0' :: 'x' :: ds => parseDigits 16 ds
    | '0' :: 'o' :: ds => parseDigits 8 ds
    | '0' :: 'b' :: ds => parseDigits 2 ds
    | ds => parseDigits 10 ds
  n.bind fun v => if v < 2 ^ 32 then some (BitVec.ofNat 32 v) else none

/-- The mnemonic a token names, lower case only (R86, D27). -/
def parseMnemonic (t : Text) : Option Mnemonic :=
  [(['a', 'n', 'd'], Mnemonic.and), (['o', 'r'], Mnemonic.or), (['a', 'd', 'd'], Mnemonic.add),
   (['s', 'u', 'b'], Mnemonic.sub), (['s', 'l', 't'], Mnemonic.slt)].lookup t

/-! ## The assembler's own state (R34) -/

/-- What one `assemble` call carries from line to line. The "current segment class" (R83) is the class of the open
segment, since that is the most recently opened one. -/
structure AsmState where
  /-- The segments already closed, in the order they were opened. -/
  done : List Segment
  /-- The open segment. -/
  cur : Option Segment
  /-- The TEXT high-water mark (R80). -/
  textMark : Nat
  /-- The DATA high-water mark (R80). -/
  dataMark : Nat
  /-- The global symbol names recorded (R84). -/
  globals : List Text
  deriving DecidableEq, Repr

/-- The start of an assembly (R80, D20). -/
def AsmState.start : AsmState where
  done := []
  cur := none
  textMark := 0x00400000
  dataMark := 0x10000000
  globals := []

/-- The high-water mark of a class (R80). -/
def AsmState.mark (a : AsmState) : SegClass → Nat
  | .text => a.textMark
  | .data => a.dataMark

/-- The class's mark raised to at least `n` (R82, D21). -/
def AsmState.raiseMark (a : AsmState) (cls : SegClass) (n : Nat) : AsmState :=
  match cls with
  | .text => { a with textMark := max a.textMark n }
  | .data => { a with dataMark := max a.dataMark n }

/-- All segments, the open one last (R79, R90). -/
def AsmState.segments (a : AsmState) : List Segment := a.done ++ a.cur.toList

/-- Opening a segment at a base address, which must lie in the class's range; the open one is closed (R79, R81). -/
def AsmState.openAt (a : AsmState) (cls : SegClass) (base : Nat) : Except AsmError AsmState :=
  if cls.inRange base then
    .ok { a with done := a.segments, cur := some { cls := cls, base := BitVec.ofNat 32 base, bytes := [] } }
  else .error .baseAddressOutOfRange

/-- The open segment `g` with bytes appended to it, its class's mark raised to its end (R82, R83). -/
def AsmState.append (a : AsmState) (g : Segment) (bs : List Byte) : AsmState :=
  let g' := { g with bytes := g.bytes ++ bs }
  { a with cur := some g' }.raiseMark g.cls g'.stop

/-! ## Lines -/

/-- `.text [addr]` and `.data [addr]` (R79 to R81). A surplus token is reported before a bad address: DESIGN CHOICE
(log 20). -/
def asmOpen (cls : SegClass) (args : List Text) (a : AsmState) : Except AsmError AsmState :=
  match args with
  | [] => a.openAt cls (a.mark cls)
  | [t] =>
    match parseNumber t with
    | some w => a.openAt cls w.toNat
    | none => .error .invalidToken
  | _ => .error .trailingToken

/-- `.globl label` (R84, D28). The open segment is checked before the label: DESIGN CHOICE (log 20). -/
def asmGlobl (args : List Text) (a : AsmState) : Except AsmError AsmState :=
  match a.cur, args with
  | none, _ => .error .segmentRequired
  | some _, [] => .error .invalidNumberOfOperands
  | some _, [t] => .ok { a with globals := a.globals ++ [t] }
  | some _, _ => .error .trailingToken

/-- The numbers of a list of operands, where all parse. -/
def parseNumbers : List Text → Option (List Word)
  | [] => some []
  | t :: ts =>
    match parseNumber t, parseNumbers ts with
    | some w, some ws => some (w :: ws)
    | _, _ => none

/-- `.word v1, v2, …` (R85): the segment is checked first, then the numbers (D29). -/
def asmWord (order : ByteOrder) (rest : Text) (a : AsmState) : Except AsmError AsmState :=
  match a.cur with
  | none => .error .segmentRequired
  | some g =>
    match parseNumbers (operandPieces rest) with
    | some ws => .ok (a.append g (ws.flatMap (splitWord order)))
    | none => .error .invalidToken

/-- The operand record of an instruction line's operands, `rd, rs, rt` in this order, `shamt` 0 (R86 to R89). -/
def parseOperands (ps : List Text) : Except AsmError ROps :=
  match ps with
  | [d, s, t] =>
    match parseRegister d, parseRegister s, parseRegister t with
    | some rd, some rs, some rt => .ok { rd := rd, rs := rs, rt := rt, shamt := 0 }
    | _, _, _ => .error .invalidRegisterName
  | _ :: _ :: _ :: _ :: _ => .error .trailingToken
  | _ => .error .invalidNumberOfOperands

/-- An instruction line (R86 to R89): mnemonic, operand count, registers, open segment, in this order (R88). -/
def asmInstr (order : ByteOrder) (tok rest : Text) (a : AsmState) : Except AsmError AsmState :=
  match parseMnemonic tok with
  | none => .error .unknownInstruction
  | some m =>
    match parseOperands (operandPieces rest) with
    | .error e => .error e
    | .ok o =>
      match a.cur with
      | none => .error .segmentRequired
      | some g => .ok (a.append g (encodeBytes order (m.build o)))

/-- A stripped line that is not blank, dispatched on its first token (R77). -/
def asmDispatch (order : ByteOrder) (tok : Text) (args : List Text) (rest : Text) (a : AsmState) :
    Except AsmError AsmState :=
  if tok = ['.', 't', 'e', 'x', 't'] then asmOpen .text args a
  else if tok = ['.', 'd', 'a', 't', 'a'] then asmOpen .data args a
  else if tok = ['.', 'g', 'l', 'o', 'b', 'l'] then asmGlobl args a
  else if tok = ['.', 'w', 'o', 'r', 'd'] then asmWord order rest a
  else asmInstr order tok rest a

/-- One source line (R75 to R77): the length is that of the raw line (D26). -/
def asmLine (order : ByteOrder) (raw : Text) (a : AsmState) : Except AsmError AsmState :=
  if Config.lineLimit < raw.length then .error .lineTooLong
  else
    match tokens (stripLine raw) with
    | [] => .ok a
    | tok :: args => asmDispatch order tok args ((stripLine raw).drop tok.length) a

/-- The lines in file order; the first that fails gives the error (R91). -/
def asmLines (order : ByteOrder) : List Text → AsmState → Except AsmError AsmState
  | [], a => .ok a
  | l :: ls, a =>
    match asmLine order l a with
    | .ok a' => asmLines order ls a'
    | .error e => .error e

/-- `assemble(endianness, source_text)` as a function of the text: the segments in the order they were opened (R90), or
the first error (R91). -/
def assembleText (order : ByteOrder) (src : Text) : Except AsmError (List Segment) :=
  match asmLines order (sourceLines src) AsmState.start with
  | .ok a => .ok a.segments
  | .error e => .error e

end Sys2Proof.Machine
end

