-- ==== Sys2Proof/Machine/Loader.lean ====
section
/-! DEFINITION. Building a memory and an executor from a list of segments (R37, R38, R143). -/

namespace Sys2Proof.Machine

/-- Why no memory is built from a segment list (R38). -/
inductive LoadError where
  /-- A segment would extend past `0xFFFFFFFF`. -/
  | pastTop
  /-- Two segments overlap. -/
  | overlap
  deriving DecidableEq, Repr

/-- The memory holding one more segment (R37): its bytes are copied as they stand. -/
def loadSegment (m : Memory) (g : Segment) : Memory := m.writeBytes g.base.toNat g.bytes

/-- The memory of a segment list, or the reason it is refused (R37, R38; D12, log 25). -/
def loadMemory (gs : List Segment) : Except LoadError Memory :=
  if !gs.all Segment.fits then .error .pastTop
  else if !segmentsDisjoint gs then .error .overlap
  else .ok (gs.foldl loadSegment [])

/-- `InitPC` (R25, D10): which of the two values depends on whether a program was loaded. -/
def Params.initPc (p : Params) (program : Option (List Segment)) : Word :=
  match program with
  | none => p.initPcEmpty
  | some _ => p.initPcLoaded

/-- A newly created executor, item by item (R143): the registers and the PC at the parameters, the given memory, byte
order and engine, the run-loop not running, the clean flag true. -/
def State.create (p : Params) (order : ByteOrder) (engine : Engine) (program : Option (List Segment)) (mem : Memory) :
    State where
  regs := p.initGPR
  pc := Params.initPc p program
  mem := mem
  byteOrder := order
  engine := engine
  loop := { running := false, stopRequest := false, engine := .interpreter }
  clean := true
  program := program
  params := p

/-- A JIT executor may exist only where the memory's byte order is the host's (R101, R148). -/
def engineLegal (p : Params) (order : ByteOrder) (engine : Engine) : Bool :=
  match engine with
  | .interpreter => true
  | .jit => decide (order = p.hostOrder)

end Sys2Proof.Machine
end

