-- ==== Sys2Proof/Machine/Pass.lean ====
section
/-! DEFINITION. One bounded `exec()` pass (R104). -/

namespace Sys2Proof.Machine

/-- How a pass ended (R104). -/
inductive PassEnd where
  /-- After the bound's number of steps. -/
  | bound
  /-- An external stop request was observed between two steps (R130). -/
  | stopSeen
  /-- A step ended in an execution error or a fault (R125). -/
  | fault (f : Fault)
  /-- A step was refused; no step is (every instruction has a meaning). -/
  | refused (r : Refusal)
  deriving DecidableEq, Repr

/-- A pass of at most `bound` steps. `stopAfter` is the environment's: the number of steps after which an external stop
request is observed in this pass, if one is (U7: any number). A step that stops leaves the state before it (R121).
DESIGN CHOICE (log 15): a request observed right after the last step ends the pass as a stop and not as the bound; R104 says
only "whichever comes first", and the state is the same. -/
def execPass : (bound : Nat) → (stopAfter : Option Nat) → State → State × PassEnd
  | _, some 0, s => (s, .stopSeen)
  | 0, _, s => (s, .bound)
  | n + 1, k, s =>
    match step s with
    | .next t => execPass n (k.map Nat.pred) t
    | .fault f => (s, .fault f)
    | .refused r => (s, .refused r)

end Sys2Proof.Machine
end

