-- ==== Sys2Proof/Machine/HostOps.lean ====
section
/-! DEFINITION. The host's operations on the machine, each atomic with respect to steps (R48, R133). -/

namespace Sys2Proof.Machine

/-- The host's operations (R133, R46). -/
inductive HostOp where
  /-- `assemble(endianness, source_text)`; `engine` is the engine the host asks for (U5: either one, where legal). -/
  | assemble (order : ByteOrder) (engine : Engine) (src : Text)
  /-- `reset()`. -/
  | reset
  /-- `edit_register(name, value)`. -/
  | editRegister (name : Text) (v : Word)
  /-- `step()`. -/
  | step
  /-- `exec()`; `stopAfter`: after how many steps of the pass an external stop request is observed, if one is. -/
  | exec (stopAfter : Option Nat)
  /-- `run(allow_jit)`, also called `start` (C10). -/
  | run (allowJit : Bool)
  /-- The request `stop()` makes; it has returned once the run-loop is not running (R130). -/
  | stop
  /-- `is_running()`. -/
  | isRunning
  /-- `can_use_jit()` (R31). -/
  | canUseJit
  /-- `read_memory(page_index, out)`. -/
  | readMemory (page : Nat)
  /-- `read_u32(addr)` (R46). -/
  | readU32 (a : Word)
  /-- `read_into_slice(addr, out)` for a buffer of `len` bytes (R46). -/
  | readIntoSlice (a : Word) (len : Nat)
  /-- `as_arch()`: reading the PC. -/
  | readPc
  /-- `as_arch()`: reading a register. -/
  | readReg (r : Reg)
  /-- `as_arch()`: reading a byte. -/
  | readByte (a : Word)
  /-- `as_arch()`: writing the PC. -/
  | writePc (v : Word)
  /-- `as_arch()`: writing a register. -/
  | writeReg (r : Reg) (v : Word)
  /-- `as_arch()`: writing a byte (D13). -/
  | writeByte (a : Word) (b : Byte)
  /-- `as_arch()`: the four byte writes of `MemWrite(a, 4, v)` (R40, C8). -/
  | writeWord (a v : Word)
  deriving DecidableEq, Repr

/-- Why an operation is rejected; it then changes nothing. -/
inductive HostReject where
  /-- The source text does not assemble (R124). -/
  | assembler (e : AsmError)
  /-- No memory is built from the segments (R38). -/
  | load (e : LoadError)
  /-- A JIT under a byte order that is not the host's (R148). -/
  | jitOrder
  /-- `edit_register` of an unknown name (R133, D37). -/
  | unknownRegister
  /-- An access whose bytes would run past `0xFFFFFFFF` (R44, D14). -/
  | pastTop
  /-- `read_memory` of a page that does not exist (R44, D14). -/
  | badPage
  deriving DecidableEq, Repr

/-- What an operation answers its caller. -/
inductive HostReturn where
  /-- Success. -/
  | ok
  /-- A step that did nothing (R10: `NoOp`). -/
  | noOp
  /-- A step stopped (R122). -/
  | fault (f : Fault)
  /-- A step was refused; no step is. -/
  | refused (r : Refusal)
  /-- How an `exec()` pass ended. -/
  | pass (e : PassEnd)
  /-- The operation was rejected. -/
  | rejected (r : HostReject)
  /-- Bytes read. -/
  | bytes (bs : List Byte)
  /-- A word read. -/
  | word (w : Word)
  /-- A flag read. -/
  | flag (b : Bool)
  deriving DecidableEq, Repr

/-- `assemble` (R133, R37, R38, R137): on success a new executor replaces the old one, the run-loop of the old one having
been stopped and waited for; on any error nothing changes (R124; logs 5 and 16). -/
def hostAssemble (order : ByteOrder) (engine : Engine) (src : Text) (s : State) : State × HostReturn :=
  match assembleText order src with
  | .error e => (s, .rejected (.assembler e))
  | .ok gs =>
    match loadMemory gs with
    | .error e => (s, .rejected (.load e))
    | .ok m =>
      if engineLegal s.params order engine then (State.create s.params order engine (some gs) m, .ok)
      else (s, .rejected .jitOrder)

/-- `reset()` (R133, D17, log 17): the state the last successful `assemble` produced, or the empty executor; the byte
order and the engine unchanged. -/
def hostReset (s : State) : State × HostReturn :=
  match s.program with
  | none => (State.create s.params s.byteOrder s.engine none [], .ok)
  | some gs =>
    match loadMemory gs with
    | .ok m => (State.create s.params s.byteOrder s.engine (some gs) m, .ok)
    | .error e => (s, .rejected (.load e))

/-- `edit_register` (R133, D37, D38): a register by name or number, or `pc`. -/
def hostEditRegister (name : Text) (v : Word) (s : State) : State × HostReturn :=
  if name = ['p', 'c'] then ({ s.setPc v with clean := false }, .ok)
  else
    match parseRegister name with
    | some r => ({ s.setReg r v with clean := false }, .ok)
    | none => (s, .rejected .unknownRegister)

/-- `step()` (R133): one step, its outcome to the caller; the clean flag false whatever the outcome (R134, D33).
DESIGN CHOICE (log 31): an error of it, made while a run-loop is active, is its caller's and does not end that run-loop. -/
def hostStep (s : State) : State × HostReturn :=
  match step s with
  | .next t => ({ t with clean := false }, if issue s = .reserved then .noOp else .ok)
  | .fault f => ({ s with clean := false }, .fault f)
  | .refused r => ({ s with clean := false }, .refused r)

/-- `exec()` (R104, R133): one pass of at most `ExecBound` steps; the clean flag false (R134). DESIGN CHOICE (log 31): an
error of it does not end a run-loop that is active. -/
def hostExec (stopAfter : Option Nat) (s : State) : State × HostReturn :=
  let p := execPass s.params.execBound stopAfter s
  ({ p.1 with clean := false }, .pass p.2)

/-- The engine a run uses (R133, R101): the JIT only if allowed, built and legal. -/
def runEngine (allowJit : Bool) (s : State) : Engine :=
  if allowJit && decide (s.engine = .jit) && engineLegal s.params s.byteOrder .jit then .jit else .interpreter

/-- `run(allow_jit)` (R129): starts the run-loop; a no-op while one is active (R131, D16). -/
def hostRun (allowJit : Bool) (s : State) : State × HostReturn :=
  if s.loop.running then (s, .ok)
  else ({ s with loop := { running := true, stopRequest := false, engine := runEngine allowJit s } }, .ok)

/-- `stop()`: requests the active run-loop to stop (R130, R133); with none active there is nothing to stop (log 14). -/
def hostStop (s : State) : State × HostReturn :=
  ({ s with loop := { s.loop with stopRequest := s.loop.running } }, .ok)

/-- One page (R46): 4096 bytes as stored; a page that does not exist is refused (R44, D14). -/
def hostReadMemory (page : Nat) (s : State) : State × HostReturn :=
  if page < Config.pageCount then (s, .bytes (s.mem.readBytes (page * Config.pageSize) Config.pageSize))
  else (s, .rejected .badPage)

/-- `read_u32` (R46): any alignment; past the top refused (R44, D14). -/
def hostReadU32 (a : Word) (s : State) : State × HostReturn :=
  if a.toNat + 4 ≤ Config.addressSpace then (s, .word (s.mem.readWord s.byteOrder a.toNat))
  else (s, .rejected .pastTop)

/-- `read_into_slice` (R46): bytes as stored (R42); past the top refused (R44, D14). -/
def hostReadIntoSlice (a : Word) (len : Nat) (s : State) : State × HostReturn :=
  if a.toNat + len ≤ Config.addressSpace then (s, .bytes (s.mem.readBytes a.toNat len))
  else (s, .rejected .pastTop)

/-- The four byte writes of a word (R40); past the top refused (log 19). -/
def hostWriteWord (a v : Word) (s : State) : State × HostReturn :=
  if a.toNat + 4 ≤ Config.addressSpace then ({ s with mem := s.mem.writeWord s.byteOrder a.toNat v }, .ok)
  else (s, .rejected .pastTop)

/-- One host operation: the state after it and its answer (R133). -/
def hostDo (op : HostOp) (s : State) : State × HostReturn :=
  match op with
  | .assemble order engine src => hostAssemble order engine src s
  | .reset => hostReset s
  | .editRegister name v => hostEditRegister name v s
  | .step => hostStep s
  | .exec k => hostExec k s
  | .run allowJit => hostRun allowJit s
  | .stop => hostStop s
  | .isRunning => (s, .flag s.loop.running)
  | .canUseJit => (s, .flag (decide (s.engine = .jit)))
  | .readMemory page => hostReadMemory page s
  | .readU32 a => hostReadU32 a s
  | .readIntoSlice a len => hostReadIntoSlice a len s
  | .readPc => (s, .word s.pc)
  | .readReg r => (s, .word (s.reg r))
  | .readByte a => (s, .bytes [s.mem.read a.toNat])
  | .writePc v => (s.setPc v, .ok)
  | .writeReg r v => (s.setReg r v, .ok)
  | .writeByte a b => ({ s with mem := s.mem.write a.toNat b }, .ok)
  | .writeWord a v => hostWriteWord a v s

end Sys2Proof.Machine
end

