-- ==== Sys2Proof/Machine/Events.lean ====
section
/-! DEFINITION. The background run-loop and its interleaving with the host's operations: one serial order (R48, R54). -/

namespace Sys2Proof.Machine

/-- The run-loop ended: not running, no request pending (R129, R130). -/
def State.endLoop (s : State) : State :=
  { s with loop := { s.loop with running := false, stopRequest := false } }

/-- One turn of the run-loop. With no run-loop active nothing happens. A pending stop request is observed at this turn if
`sees` is true: when it is observed is the environment's (U7, R152). Otherwise the loop performs one step (R129); an
execution error or a fault of that step ends it and is reported (R122, R125; an error of the host's own `step()` or `exec()`
does not, log 31); a step in the reserved region does not end it (R106). -/
def loopTurn (sees : Bool) (s : State) : State × HostReturn :=
  if !s.loop.running then (s, .ok)
  else if sees && s.loop.stopRequest then (s.endLoop, .ok)
  else
    match hostStep s with
    | (t, .fault f) => (t.endLoop, .fault f)
    | (t, .refused r) => (t.endLoop, .refused r)
    | (t, r) => (t, r)

/-- What happens at one instruction boundary. -/
inductive Event where
  /-- A host operation. -/
  | host (op : HostOp)
  /-- A turn of the run-loop. -/
  | turn (sees : Bool)
  deriving DecidableEq, Repr

/-- One event. -/
def applyEvent (e : Event) (s : State) : State × HostReturn :=
  match e with
  | .host op => hostDo op s
  | .turn sees => loopTurn sees s

/-- The state after a serial order of events. -/
def runEvents : List Event → State → State
  | [], s => s
  | e :: es, s => runEvents es (applyEvent e s).1

end Sys2Proof.Machine
end

