-- ==== Sys2Proof/Safety.lean ====
section
/-! DEFINITION. What claims speak of: the architectural part of a state, runs of steps, and the invariant that rules out
states no creation and no operation makes. -/

namespace Sys2Proof.Machine

/-- The architectural state (10_state.md): registers, PC, memory and its byte order. -/
structure Arch where
  regs : Vector Word 32
  pc : Word
  mem : Memory
  byteOrder : ByteOrder
  deriving DecidableEq, Repr

/-- The architectural part of a state. -/
def State.arch (s : State) : Arch where
  regs := s.regs
  pc := s.pc
  mem := s.mem
  byteOrder := s.byteOrder

/-- `k` successful steps lead from `s` to `t`. -/
inductive Steps : Nat → State → State → Prop where
  | zero (s : State) : Steps 0 s s
  | succ {k : Nat} {s t u : State} : step s = .next t → Steps k t u → Steps (k + 1) s u

/-- The step at `s` executes an instruction: a legal PC whose word decodes (R99). -/
def Runnable (s : State) : Prop := executablePc s.pc = true ∧ (decode (fetchWord s)).isSome = true

/-- What holds of every state the machine is ever in: memory in canonical form; a JIT only under the host's byte order
(R101, R148); a stop request only while a run-loop is active (R32); the loop's engine the JIT only on a JIT executor
(R133); the program, if any, one a memory can be built from (R38); a positive `ExecBound` (D15). -/
structure State.Inv (s : State) : Prop where
  memory : s.mem.wf = true
  engine : engineLegal s.params s.byteOrder s.engine = true
  request : s.loop.stopRequest = true → s.loop.running = true
  loopEngine : s.loop.engine = .jit → s.engine = .jit
  program : ∀ gs, s.program = some gs → programWf gs = true
  params : s.params.wf = true

end Sys2Proof.Machine
end

