-- ==== Sys2Proof/Certificates/Slice0/Obligations.lean ====
section
/-! DEFINITION. The statements for the provers, and the few definitions they are written with. -/

open Sys2Proof Sys2Proof.Machine

/-! ## Words used by the statements -/

/-- The funct codes as R62 lists them. -/
def Sys2Proof.Claims.functCode : Mnemonic → Nat
  | .and => 0x24
  | .or => 0x25
  | .add => 0x20
  | .sub => 0x22
  | .slt => 0x2a

/-- The match values of the opcode table's rows (R71). -/
def Sys2Proof.Claims.rowMatch : Mnemonic → Word
  | .and => 0x00000024#32
  | .or => 0x00000025#32
  | .add => 0x00000020#32
  | .sub => 0x00000022#32
  | .slt => 0x0000002A#32

/-- `alu(i, a, b)` of 41_rtype_alu.md in exact arithmetic on the operands read as numbers, narrowed at the end. -/
def Sys2Proof.Claims.alu (c : SltCompare) (m : Mnemonic) (a b : Word) : Word :=
  match m with
  | .and => BitVec.ofNat 32 (a.toNat &&& b.toNat)
  | .or => BitVec.ofNat 32 (a.toNat ||| b.toNat)
  | .add => BitVec.ofNat 32 ((a.toNat + b.toNat) % 2 ^ 32)
  | .sub => BitVec.ofInt 32 (((a.toNat : Int) - (b.toNat : Int)) % 2 ^ 32)
  | .slt =>
    match c with
    | .signed => if a.toInt < b.toInt then 1#32 else 0#32
    | .unsigned => if a.toNat < b.toNat then 1#32 else 0#32

/-- `t` is `s` but for the register `rd` and the PC: every other register, every byte of memory, the byte order and all
the host-visible state are unchanged. -/
def Sys2Proof.Claims.OnlyRdAndPc (rd : Reg) (s t : State) : Prop :=
  (∀ r : Reg, r ≠ rd → t.reg r = s.reg r) ∧
  (∀ a : Nat, Memory.read t.mem a = Memory.read s.mem a) ∧
  t.mem = s.mem ∧ t.byteOrder = s.byteOrder ∧ t.engine = s.engine ∧ t.loop = s.loop ∧
  t.clean = s.clean ∧ t.program = s.program ∧ t.params = s.params

/-- Operations that write no architectural state: `run`, `stop`, queries and reads. -/
def Sys2Proof.Claims.opIsQuiet : HostOp → Bool
  | .assemble _ _ _ => false
  | .reset => false
  | .editRegister _ _ => false
  | .step => false
  | .exec _ => false
  | .run _ => true
  | .stop => true
  | .isRunning => true
  | .canUseJit => true
  | .readMemory _ => true
  | .readU32 _ => true
  | .readIntoSlice _ _ => true
  | .readPc => true
  | .readReg _ => true
  | .readByte _ => true
  | .writePc _ => false
  | .writeReg _ _ => false
  | .writeByte _ _ => false
  | .writeWord _ _ => false

/-- Run-loop turns and operations that write no architectural state. -/
def Sys2Proof.Claims.onlyTheLoopWrites : Event → Bool
  | .turn _ => true
  | .host op => Claims.opIsQuiet op

/-- The event is no `assemble`. -/
def Sys2Proof.Claims.noAssemble : Event → Bool
  | .host (.assemble _ _ _) => false
  | _ => true

/-- A mnemonic as text. -/
def Sys2Proof.Claims.mnemonicText : Mnemonic → Text
  | .and => ['a', 'n', 'd']
  | .or => ['o', 'r']
  | .add => ['a', 'd', 'd']
  | .sub => ['s', 'u', 'b']
  | .slt => ['s', 'l', 't']

/-- The register names of R14 with their indices, as its table lists them. The indices are the spec's general knowledge
(GK1, D11, log 11); index 3 has no name. -/
def Sys2Proof.Claims.namedRegisters : List (Text × Reg) :=
  [("$zero".toList, 0), ("$at".toList, 1), ("$v0".toList, 2),
    ("$a0".toList, 4), ("$a1".toList, 5), ("$a2".toList, 6), ("$a3".toList, 7)] ++
  [("$t0".toList, 8), ("$t1".toList, 9), ("$t2".toList, 10), ("$t3".toList, 11),
    ("$t4".toList, 12), ("$t5".toList, 13), ("$t6".toList, 14), ("$t7".toList, 15)] ++
  [("$s0".toList, 16), ("$s1".toList, 17), ("$s2".toList, 18), ("$s3".toList, 19),
    ("$s4".toList, 20), ("$s5".toList, 21), ("$s6".toList, 22), ("$s7".toList, 23)] ++
  [("$t8".toList, 24), ("$t9".toList, 25), ("$k0".toList, 26), ("$k1".toList, 27),
    ("$gp".toList, 28), ("$sp".toList, 29), ("$s8".toList, 30), ("$ra".toList, 31)]

/-- The text is one or more decimal digits, read as the number `n`. Leading zeros count as digits: the model's choice
(log 11). -/
def Sys2Proof.Claims.IsDecimal (ds : Text) (n : Nat) : Prop :=
  ds ≠ [] ∧ (∀ c ∈ ds, '0' ≤ c ∧ c ≤ '9') ∧ n = ds.foldl (fun acc c => 10 * acc + (c.toNat - '0'.toNat)) 0

/-- The text names the register: a name of R14, or `$N` (R15). -/
def Sys2Proof.Claims.NamesRegister (name : Text) (r : Reg) : Prop :=
  (name, r) ∈ Claims.namedRegisters ∨ ∃ ds : Text, name = '$' :: ds ∧ Claims.IsDecimal ds r.val

/-- The numeric form `$N` of a register (R15). -/
def Sys2Proof.Claims.numericName (r : Reg) : Text := '$' :: Nat.toDigits 10 r.val

/-- The source text of one instruction in a TEXT segment at the default base address. -/
def Sys2Proof.Claims.oneInstructionSource (m : Mnemonic) (rd rs rt : Reg) : Text :=
  ['.', 't', 'e', 'x', 't', '\n'] ++ Claims.mnemonicText m ++ [' '] ++ Claims.numericName rd ++ [',', ' ']
    ++ Claims.numericName rs ++ [',', ' '] ++ Claims.numericName rt

/-! ## Encoding -/

/-- The words of W1 and W2 and the nine decodable words of V1 decode as 95_test_vectors.md says, and the ten words V1
lists as illegal do not. -/
def Obligations.SpecExampleWordsDecode : Prop :=
  decode 0x008C0020#32 = some (.add ⟨0, 4, 12, 0⟩) ∧
  decode 0x02001022#32 = some (.sub ⟨2, 16, 0, 0⟩) ∧
  decode 0x012A4020#32 = some (.add ⟨8, 9, 10, 0⟩) ∧
  decode 0x012A4022#32 = some (.sub ⟨8, 9, 10, 0⟩) ∧
  decode 0x012A4024#32 = some (.and ⟨8, 9, 10, 0⟩) ∧
  decode 0x012A4025#32 = some (.or ⟨8, 9, 10, 0⟩) ∧
  decode 0x012A402A#32 = some (.slt ⟨8, 9, 10, 0⟩) ∧
  decode 0x00000020#32 = some (.add ⟨0, 0, 0, 0⟩) ∧
  decode 0x03FFFFEA#32 = some (.slt ⟨31, 31, 31, 31⟩) ∧
  decode 0x012A4060#32 = some (.add ⟨8, 9, 10, 1⟩) ∧
  decode 0x012A47E0#32 = some (.add ⟨8, 9, 10, 31⟩) ∧
  decode 0x00000000#32 = none ∧ decode 0x00000008#32 = none ∧ decode 0x0000000C#32 = none ∧
  decode 0x00000021#32 = none ∧ decode 0x0000002B#32 = none ∧ decode 0x0000003F#32 = none ∧
  decode 0x04000020#32 = none ∧ decode 0x8C000000#32 = none ∧ decode 0xFC000020#32 = none ∧
  decode 0x20402A01#32 = none

/-- R65: `encode` puts the fields side by side, which is the bitwise OR of the shifted fields and the funct code. -/
def Obligations.EncodeLaysOutTheFields : Prop :=
  ∀ (m : Mnemonic) (o : ROps),
    encode (m.build o) =
      (BitVec.ofNat 32 o.rs.val <<< 21) ||| (BitVec.ofNat 32 o.rt.val <<< 16) ||| (BitVec.ofNat 32 o.rd.val <<< 11)
        ||| (BitVec.ofNat 32 o.shamt.val <<< 6) ||| BitVec.ofNat 32 (Claims.functCode m) ∧
    encode (m.build o) =
      0#6 ++ BitVec.ofNat 5 o.rs.val ++ BitVec.ofNat 5 o.rt.val ++ BitVec.ofNat 5 o.rd.val ++ BitVec.ofNat 5 o.shamt.val
        ++ BitVec.ofNat 6 (Claims.functCode m)

/-- R61: every encoded word has opcode field 0, and among encoded words the funct field tells the instructions apart. -/
def Obligations.OpcodeZeroFunctDistinguishes : Prop :=
  ∀ i j : Instr,
    (encode i).extractLsb' 26 6 = 0#6 ∧
    ((encode i).extractLsb' 0 6 = (encode j).extractLsb' 0 6 ↔ i.mnemonic = j.mnemonic)

/-- The three round-trip laws of R68. The second and third are the spec's own derivations. -/
def Obligations.DecodeAndEncodeAgree : Prop :=
  (∀ i : Instr, decode (encode i) = some i) ∧
  (∀ (w : Word) (i : Instr), decode w = some i → encode i = w) ∧
  Function.Injective encode

/-- Decoding from bytes consumes exactly the four bytes of the instruction, in either byte order, and fewer than four
bytes hold none (30_encoding.md section 1; 20_memory.md section 2; the byte layout is GK2). -/
def Obligations.DecodeBytesConsumesOneWord : Prop :=
  ∀ (order : ByteOrder) (i : Instr) (rest : List Byte),
    (encodeBytes order i).length = 4 ∧
    decodeBytes order (encodeBytes order i ++ rest) = .ok (i, rest) ∧
    ∀ bs : List Byte, bs.length < 4 → decodeBytes order bs = .error .truncated

/-- The decoder refuses exactly the words with a non-zero opcode or a funct outside the table, whatever the other fields
(30_encoding.md section 3; the spec's own decision D8). -/
def Obligations.DecodeRefusesExactlyTheOthers : Prop :=
  ∀ w : Word, decode w = none ↔
    (w.toNat / 2 ^ 26 ≠ 0 ∨ ¬(w.toNat % 64 = 0x20 ∨ w.toNat % 64 = 0x22 ∨ w.toNat % 64 = 0x24 ∨ w.toNat % 64 = 0x25 ∨
      w.toNat % 64 = 0x2a))

/-- Mask and match of each row of the opcode table: the word decodes to the row's mnemonic exactly where it matches, with
its operands read from bits 25:21, 20:16, 15:11 and 10:6 (30_encoding.md section 4; the spec's own derivation). -/
def Obligations.OpcodeTableRowsDecode : Prop :=
  ∀ (m : Mnemonic) (w : Word),
    (w &&& 0xFC00003F#32 = Claims.rowMatch m ↔ ∃ o : ROps, decode w = some (m.build o)) ∧
    ∀ o : ROps, decode w = some (m.build o) →
      o.rs.val = w.toNat / 2 ^ 21 % 32 ∧ o.rt.val = w.toNat / 2 ^ 16 % 32 ∧
      o.rd.val = w.toNat / 2 ^ 11 % 32 ∧ o.shamt.val = w.toNat / 2 ^ 6 % 32

/-- Exactly `5 * 2^20` words decode (30_encoding.md section 4; the spec's own derivation). -/
def Obligations.DecodableWordCount : Prop :=
  Nat.card (Subtype fun w : Word => (decode w).isSome = true) = 5 * 2 ^ 20

/-! ## The instructions: completion, result and frame -/

/-- `and` completes in every state: each bit of `rd` is the AND of the sources' bits, the PC advances by 4, nothing else
changes. The meaning of the mnemonic is the spec's general knowledge GK3; `exec` outside a step advances the PC modulo
`2^32` (log 27). -/
def Obligations.AndCompletes : Prop :=
  ∀ (o : ROps) (s : State), ∃ t : State,
    exec (.and o) s = .next t ∧
    (∀ k : Nat, (t.reg o.rd).getLsbD k = ((s.reg o.rs).getLsbD k && (s.reg o.rt).getLsbD k)) ∧
    (o.rs = o.rt → t.reg o.rd = s.reg o.rs) ∧
    t.pc = s.pc + 4#32 ∧ Claims.OnlyRdAndPc o.rd s t

/-- `or` completes in every state: each bit of `rd` is the OR of the sources' bits, the PC advances by 4, nothing else
changes. The meaning of the mnemonic is the spec's general knowledge GK3; `exec` outside a step advances the PC modulo
`2^32` (log 27). -/
def Obligations.OrCompletes : Prop :=
  ∀ (o : ROps) (s : State), ∃ t : State,
    exec (.or o) s = .next t ∧
    (∀ k : Nat, (t.reg o.rd).getLsbD k = ((s.reg o.rs).getLsbD k || (s.reg o.rt).getLsbD k)) ∧
    (s.reg o.rt = 0#32 → t.reg o.rd = s.reg o.rs) ∧
    t.pc = s.pc + 4#32 ∧ Claims.OnlyRdAndPc o.rd s t

/-- `add` completes in every state: `rd` holds the sum modulo `2^32`, with no trap, whatever the operands; the PC advances
by 4, nothing else changes. Wrapping is the spec's own decision D2 (log 8). -/
def Obligations.AddCompletes : Prop :=
  ∀ (o : ROps) (s : State), ∃ t : State,
    exec (.add o) s = .next t ∧
    (t.reg o.rd).toNat = ((s.reg o.rs).toNat + (s.reg o.rt).toNat) % 2 ^ 32 ∧
    (o.rs = o.rt → (t.reg o.rd).toNat = 2 * (s.reg o.rs).toNat % 2 ^ 32) ∧
    t.pc = s.pc + 4#32 ∧ Claims.OnlyRdAndPc o.rd s t

/-- `sub` completes in every state: `rd` holds `rs` minus `rt` modulo `2^32`, with no trap; the PC advances by 4, nothing
else changes. Wrapping is the spec's own decision D3 (log 8). -/
def Obligations.SubCompletes : Prop :=
  ∀ (o : ROps) (s : State), ∃ t : State,
    exec (.sub o) s = .next t ∧
    ((t.reg o.rd).toNat : Int) = (((s.reg o.rs).toNat : Int) - ((s.reg o.rt).toNat : Int)) % 2 ^ 32 ∧
    (o.rs = o.rt → t.reg o.rd = 0#32) ∧
    t.pc = s.pc + 4#32 ∧ Claims.OnlyRdAndPc o.rd s t

/-- `slt` completes in every state: `rd` holds 1 if the first source is less than the second under the parameter
`SltCompare`, else 0; the PC advances by 4, nothing else changes. `SltCompare` is the spec's own decision D4 (log 2). -/
def Obligations.SltCompletes : Prop :=
  ∀ (o : ROps) (s : State), ∃ t : State,
    exec (.slt o) s = .next t ∧
    (t.reg o.rd = 1#32 ∨ t.reg o.rd = 0#32) ∧
    (s.params.sltCompare = .signed → (t.reg o.rd = 1#32 ↔ (s.reg o.rs).toInt < (s.reg o.rt).toInt)) ∧
    (s.params.sltCompare = .unsigned → (t.reg o.rd = 1#32 ↔ (s.reg o.rs).toNat < (s.reg o.rt).toNat)) ∧
    t.pc = s.pc + 4#32 ∧ Claims.OnlyRdAndPc o.rd s t

/-- Read as signed numbers, `add` and `sub` give the representative in `[-2^31, 2^31)` of the exact sum and difference
(41_rtype_alu.md section 3; decisions D2, D3, log 8). -/
def Obligations.SignedReadingOfAddAndSub : Prop :=
  ∀ (o : ROps) (s t u : State), exec (.add o) s = .next t → exec (.sub o) s = .next u →
    (∃ k : Int, (t.reg o.rd).toInt = (s.reg o.rs).toInt + (s.reg o.rt).toInt + k * 2 ^ 32) ∧
    (∃ k : Int, (u.reg o.rd).toInt = (s.reg o.rs).toInt - (s.reg o.rt).toInt + k * 2 ^ 32) ∧
    -(2 ^ 31) ≤ (t.reg o.rd).toInt ∧ (t.reg o.rd).toInt < 2 ^ 31

/-- `slt` under `Signed` and under `Unsigned` write the same word exactly where the sources' sign bits are equal
(41_rtype_alu.md section 3; the spec's own derivation, for both values of D4). -/
def Obligations.SltReadingsAgreeOnEqualSigns : Prop :=
  ∀ (o : ROps) (s u t v : State),
    u = { s with params := { s.params with sltCompare := .unsigned } } → s.params.sltCompare = .signed →
    exec (.slt o) s = .next t → exec (.slt o) u = .next v →
    (t.reg o.rd = v.reg o.rd ↔ (s.reg o.rs).getLsbD 31 = (s.reg o.rt).getLsbD 31)

/-- Two instructions that differ only in `shamt` execute identically in every state (41_rtype_alu.md section 1; the spec's
own derivation). -/
def Obligations.ShamtMakesNoDifference : Prop :=
  ∀ (m : Mnemonic) (o : ROps) (sh : Fin 32) (s : State), ∃ t : State,
    exec (m.build o) s = .next t ∧ exec (m.build { o with shamt := sh }) s = .next t

/-- R17: register 0 is an ordinary register: a value the host writes to it reads back, and stays until an instruction
whose destination is register 0. -/
def Obligations.RegisterZeroIsOrdinary : Prop :=
  ∀ (s : State) (v : Word), ∃ t : State,
    hostDo (.writeReg 0 v) s = (t, .ok) ∧ hostDo (.readReg 0) t = (t, .word v) ∧
    ∀ (i : Instr) (u : State), exec i t = .next u → i.ops.rd ≠ 0 → u.reg 0 = v

/-- An instruction with `rd = 0` writes its result into register 0, and any instruction that then names `$zero` as a
source computes with that result; so `add $zero, $t1, $t2` is no no-op, and `or rd, rs, $zero` copies every `rs` only
while `x[0] = 0` (10_state.md section 1, 41_rtype_alu.md). The results themselves rest on the spec's general knowledge GK3
(log 13), its own decisions D2 and D3 (log 8) and its parameter D4 (log 2). -/
def Obligations.RegisterZeroKeepsResults : Prop :=
  (∀ (m : Mnemonic) (o : ROps) (s : State), o.rd = 0 → ∃ t : State,
    exec (m.build o) s = .next t ∧
    t.reg 0 = Claims.alu s.params.sltCompare m (s.reg o.rs) (s.reg o.rt) ∧
    ∀ (n : Mnemonic) (q : ROps),
      (q.rs = 0 → ∃ u : State, exec (n.build q) t = .next u ∧
        u.reg q.rd = Claims.alu t.params.sltCompare n (t.reg 0) (t.reg q.rt)) ∧
      (q.rt = 0 → ∃ u : State, exec (n.build q) t = .next u ∧
        u.reg q.rd = Claims.alu t.params.sltCompare n (t.reg q.rs) (t.reg 0))) ∧
  (∃ s t : State, exec (.add ⟨0, 9, 10, 0⟩) s = .next t ∧ t.reg 0 ≠ s.reg 0) ∧
  (∀ x0 : Word,
    (∀ (q : ROps) (s : State), q.rt = 0 → s.reg 0 = x0 →
      ∃ u : State, exec (.or q) s = .next u ∧ u.reg q.rd = s.reg q.rs) ↔ x0 = 0#32)

/-! ## The step -/

/-- R95: below `0x1000` the step and every `exec()` pass do nothing and succeed, whatever the memory holds. -/
def Obligations.ReservedRegionDoesNothing : Prop :=
  ∀ s : State, s.pc.toNat < 0x1000 →
    step s = .next s ∧
    (∀ (n : Nat) (k : Option Nat), ∃ e : PassEnd, execPass n k s = (s, e) ∧ (e = .bound ∨ e = .stopSeen)) ∧
    (hostDo .step s).2 = .noOp ∧ (hostDo .step s).1.arch = s.arch

/-- A misaligned PC at or above `0x1000` faults, whatever the memory holds (40_step_cycle.md section 1; the spec's own
decision D6, log 9). -/
def Obligations.MisalignedPcFaults : Prop :=
  ∀ s : State, 0x1000 ≤ s.pc.toNat → s.pc.toNat % 4 ≠ 0 → step s = .fault (.misalignedFetch s.pc)

/-- The step raises `DecodeFailure` exactly where it fetches, and the fetched word has a non-zero opcode or a funct
outside the table; the zero word of unwritten memory is one (60_exceptions.md section 1). That it fetches only at an
aligned PC is the spec's own decisions D6 and D7 (log 9), that it records the PC and the word its D19, and that it does
fail on those words its D8 (log 10). -/
def Obligations.DecodeFailureCause : Prop :=
  (∀ (s : State) (pc w : Word), step s = .fault (.decodeFailure pc w) ↔
    (pc = s.pc ∧ w = fetchWord s ∧ 0x1000 ≤ s.pc.toNat ∧ s.pc.toNat % 4 = 0 ∧
      (w.extractLsb' 26 6 ≠ 0#6 ∨ w.extractLsb' 0 6 ∉ [0x20#6, 0x22#6, 0x24#6, 0x25#6, 0x2a#6]))) ∧
  (∀ s : State, 0x1000 ≤ s.pc.toNat → s.pc.toNat % 4 = 0 → (∀ i : Nat, i < 4 → Memory.read s.mem (s.pc.toNat + i) = 0#8) →
    step s = .fault (.decodeFailure s.pc 0#32))

/-- At `0xFFFFFFFC` a word that decodes faults and one that does not is a decode failure: the PC never wraps
(40_step_cycle.md section 1; the spec's own decisions D5, D7, log 9; what is recorded is its D19). -/
def Obligations.TopOfAddressSpaceFaults : Prop :=
  ∀ s : State, s.pc = 0xFFFFFFFC#32 →
    ((decode (fetchWord s)).isSome = true → step s = .fault (.pcOverflow 0xFFFFFFFC#32)) ∧
    (decode (fetchWord s) = none → step s = .fault (.decodeFailure 0xFFFFFFFC#32 (fetchWord s)))

/-- A decoded instruction at an aligned PC in `0x1000 .. 0xFFFFFFF8` writes its result to `rd` and advances the PC by
4; nothing else changes (40_step_cycle.md section 1). The result rests on the spec's general knowledge GK3 (log 13), its
own decisions D2 and D3 (log 8), its parameter D4 (log 2) and its reading D35 of the sources before `rd` (log 26). -/
def Obligations.DecodedInstructionAdvances : Prop :=
  ∀ (s : State) (m : Mnemonic) (o : ROps),
    0x1000 ≤ s.pc.toNat → s.pc.toNat ≤ 0xFFFFFFF8 → s.pc.toNat % 4 = 0 → decode (fetchWord s) = some (m.build o) →
    ∃ t : State, step s = .next t ∧
      t.reg o.rd = Claims.alu s.params.sltCompare m (s.reg o.rs) (s.reg o.rt) ∧
      t.pc.toNat = s.pc.toNat + 4 ∧ Claims.OnlyRdAndPc o.rd s t

/-- The step is the spec's pseudocode, check by check in its order (40_step_cycle.md section 1, 60_exceptions.md section
3). The order is partly the spec's own decision D7, the two faults are its D6 and D5 (log 9), what a fault records its D19;
the result rests on GK3 (log 13), D2 and D3 (log 8), D4 (log 2) and D35 (log 26). -/
def Obligations.StepIsThePseudocode : Prop :=
  ∀ s : State, step s =
    if s.pc.toNat < 0x1000 then .next s
    else if s.pc.toNat % 4 ≠ 0 then .fault (.misalignedFetch s.pc)
    else
      let w := s.mem.readWord s.byteOrder s.pc.toNat
      match decode w with
      | none => .fault (.decodeFailure s.pc w)
      | some i =>
        if s.pc = 0xFFFFFFFC#32 then .fault (.pcOverflow s.pc)
        else .next ((s.setReg i.ops.rd
          (Claims.alu s.params.sltCompare i.mnemonic (s.reg i.ops.rs) (s.reg i.ops.rt))).setPc (s.pc + 4#32))

/-- When the four bytes at an executable PC decode, the step is `exec` of that instruction at that state; the step adds
nothing around it (40_step_cycle.md section 1). -/
def Obligations.StepRunsTheDecodedInstruction : Prop :=
  ∀ (s : State) (i : Instr),
    0x1000 ≤ s.pc.toNat → s.pc.toNat ≤ 0xFFFFFFF8 → s.pc.toNat % 4 = 0 →
    decodeBytes s.byteOrder (s.mem.readBytes s.pc.toNat 4) = .ok (i, []) →
    step s = exec i s

/-- The instruction word is the four bytes at `pc .. pc+3` of the current memory, least significant first under
Little and most significant first under Big, so a word the host writes there between steps is the one fetched
(40_step_cycle.md section 1). The order of the bytes is the spec's general knowledge GK2 (log 12); that the host may write
memory and the next fetch sees it is the spec's own decision D13, and the word write as one operation is log 19. -/
def Obligations.FetchReadsCurrentMemory : Prop :=
  (∀ s : State, (fetchWord s).toNat =
    match s.byteOrder with
    | .little => (Memory.read s.mem s.pc.toNat).toNat + 2 ^ 8 * (Memory.read s.mem (s.pc.toNat + 1)).toNat
        + 2 ^ 16 * (Memory.read s.mem (s.pc.toNat + 2)).toNat + 2 ^ 24 * (Memory.read s.mem (s.pc.toNat + 3)).toNat
    | .big => 2 ^ 24 * (Memory.read s.mem s.pc.toNat).toNat + 2 ^ 16 * (Memory.read s.mem (s.pc.toNat + 1)).toNat
        + 2 ^ 8 * (Memory.read s.mem (s.pc.toNat + 2)).toNat + (Memory.read s.mem (s.pc.toNat + 3)).toNat) ∧
  (∀ (s : State) (i : Instr), s.mem.wf = true → executablePc s.pc = true →
    step (hostDo (.writeWord s.pc (encode i)) s).1 = exec i (hostDo (.writeWord s.pc (encode i)) s).1)

/-- Every step ends in one of the spec's outcomes: a next state, or one of three faults that record the PC; none is
refused (00_scope.md section 4, 60_exceptions.md section 1; the two `Fault`s are the spec's own D5, D6, log 9, and what is
recorded is its D19). -/
def Obligations.StepOutcomesAreTheSpecs : Prop :=
  ∀ s : State,
    (∃ t : State, step s = .next t) ∨ step s = .fault (.decodeFailure s.pc (fetchWord s)) ∨
    step s = .fault (.misalignedFetch s.pc) ∨ step s = .fault (.pcOverflow s.pc)

/-- A successful step leaves the PC or adds exactly 4 to it, without wrapping (10_state.md section 2, 40_step_cycle.md
section 3; no wrap is the spec's own decision D5), and a word-aligned PC stays aligned. -/
def Obligations.StepAdvancesPcByFour : Prop :=
  ∀ s t : State, step s = .next t →
    (s.pc.toNat < 0x1000 ∧ t = s ∨ 0x1000 ≤ s.pc.toNat ∧ t.pc.toNat = s.pc.toNat + 4) ∧
    (s.pc.toNat % 4 = 0 → t.pc.toNat % 4 = 0)

/-- No step writes memory, the byte order or any host-visible state, and it writes at most one register
(20_memory.md sections 4 and 7, 10_state.md sections 4 and 5; the spec's own derivations). -/
def Obligations.StepFrame : Prop :=
  ∀ s t : State, step s = .next t → ∃ rd : Reg, Claims.OnlyRdAndPc rd s t

/-- The step depends on nothing but the architectural state and `SltCompare`: the engine, the host's byte order, the
run-loop, the clean flag and the program make no difference (40_step_cycle.md section 2: both engines give the same
result; 10_state.md section 5). -/
def Obligations.StepDependsOnArchitectureOnly : Prop :=
  ∀ s s' : State, s.arch = s'.arch → s.params.sltCompare = s'.params.sltCompare →
    (∀ t : State, step s = .next t → ∃ t' : State, step s' = .next t' ∧ t.arch = t'.arch) ∧
    (∀ f : Fault, step s = .fault f → step s' = .fault f)

/-- The invariant of `State.Inv` is kept by every step that answers a next state. `State.Inv` is the model's statement of
10_state.md section 5, 20_memory.md section 1 and 70_reset_and_hazards.md section 2; its clauses on the stop request, the
loop's engine and the form of memory are the model's own (logs 14, 5, 7). -/
def Obligations.StepKeepsInvariant : Prop :=
  ∀ s t : State, State.Inv s → step s = .next t → State.Inv t

/-! ## Memory -/

/-- A machine with no program holds a memory whose every byte is 0, right after reset and after every `reset()`
(20_memory.md section 1). That `reset()` with no program restores the empty executor is the spec's own decision D17
(log 17). -/
def Obligations.EmptyMemoryReadsZero : Prop :=
  (∀ a : Nat, Memory.read State.reset.mem a = 0#8) ∧
  (∀ s : State, s.program = none → ∀ a : Nat, Memory.read (hostDo .reset s).1.mem a = 0#8) ∧
  (∀ m : Memory, loadMemory [] = .ok m → ∀ a : Nat, Memory.read m a = 0#8)

/-- R37: the memory built from a segment list holds each segment's bytes as they stand at its base address, and zero
everywhere else. -/
def Obligations.LoadedMemoryHoldsTheSegments : Prop :=
  ∀ (gs : List Segment) (m : Memory), loadMemory gs = .ok m →
    (∀ g ∈ gs, ∀ i : Nat, i < g.bytes.length → some (Memory.read m (g.base.toNat + i)) = g.bytes[i]?) ∧
    (∀ a : Nat, (∀ g ∈ gs, ¬(g.base.toNat ≤ a ∧ a < g.base.toNat + g.bytes.length)) → Memory.read m a = 0#8)

/-- A segment list is refused exactly where a segment passes `0xFFFFFFFF` or some address lies in two segments
(20_memory.md section 1; the spec's own decision D12, log 25). -/
def Obligations.LoadRefusesExactlyOverlapAndPastTop : Prop :=
  ∀ gs : List Segment,
    (∃ m : Memory, loadMemory gs = .ok m) ↔
      ((∀ g ∈ gs, g.base.toNat + g.bytes.length ≤ 2 ^ 32) ∧
        gs.Pairwise fun g h => ¬∃ a : Nat,
          (g.base.toNat ≤ a ∧ a < g.base.toNat + g.bytes.length) ∧ (h.base.toNat ≤ a ∧ a < h.base.toNat + h.bytes.length))

/-- A word the host writes reads back, its four bytes lie in the memory's byte order, and every other byte and the rest of
the state are unchanged (20_memory.md sections 2 and 4). The byte layout is the spec's general knowledge GK2 (log 12), that
the host may write memory is its own decision D13, and the four byte writes as one operation are the model's choice
(log 19), as is that they leave the clean flag (log 18). That the form of memory stays canonical is about the model's own
form (log 7). -/
def Obligations.HostWordWriteReadsBack : Prop :=
  ∀ (s : State) (a v : Word), s.mem.wf = true → a.toNat + 4 ≤ 2 ^ 32 → ∃ t : State,
    hostDo (.writeWord a v) s = (t, .ok) ∧ hostDo (.readU32 a) t = (t, .word v) ∧
    (∀ i : Nat, i < 4 → (Memory.read t.mem (a.toNat + i)).toNat =
      if s.byteOrder = .little then v.toNat / 2 ^ (8 * i) % 256 else v.toNat / 2 ^ (8 * (3 - i)) % 256) ∧
    (∀ x : Nat, ¬(a.toNat ≤ x ∧ x < a.toNat + 4) → Memory.read t.mem x = Memory.read s.mem x) ∧ t.mem.wf = true ∧
    t = { s with mem := t.mem }

/-- Canonical memories that read alike at every address are equal: the form is the model's own (Machine/Ops.lean), the
total map of addresses to bytes is the spec's (20_memory.md section 1; log 7). -/
def Obligations.CanonicalMemoriesAreExtensional : Prop :=
  ∀ m n : Memory, m.wf = true → n.wf = true → (∀ a : Nat, Memory.read m a = Memory.read n a) → m = n

/-- The host's reads return the stored bytes, in the range they may read, refuse outside it, and change nothing
(20_memory.md sections 3 and 4; refusing is the spec's own decision D14, log 30). -/
def Obligations.HostReadsReturnStoredBytes : Prop :=
  ∀ (s : State) (a : Word) (n page : Nat),
    (page < 2 ^ 20 → ∃ bs : List Byte, hostDo (.readMemory page) s = (s, .bytes bs) ∧ bs.length = 4096 ∧
      ∀ i : Nat, i < 4096 → bs[i]? = some (Memory.read s.mem (page * 4096 + i))) ∧
    (2 ^ 20 ≤ page → hostDo (.readMemory page) s = (s, .rejected .badPage)) ∧
    (a.toNat + n ≤ 2 ^ 32 → ∃ bs : List Byte, hostDo (.readIntoSlice a n) s = (s, .bytes bs) ∧ bs.length = n ∧
      ∀ i : Nat, i < n → bs[i]? = some (Memory.read s.mem (a.toNat + i))) ∧
    (2 ^ 32 < a.toNat + n → hostDo (.readIntoSlice a n) s = (s, .rejected .pastTop)) ∧
    (a.toNat + 4 ≤ 2 ^ 32 → hostDo (.readU32 a) s = (s, .word (s.mem.readWord s.byteOrder a.toNat))) ∧
    (2 ^ 32 < a.toNat + 4 → hostDo (.readU32 a) s = (s, .rejected .pastTop))

/-! ## Errors, runs and the run-loop -/

/-- A step's error is reported to the caller of `step()` and `exec()`, and stops the run-loop that made the step; no step
follows it (60_exceptions.md section 1). That the two `Fault`s are treated as an execution error is the spec's own
decisions D5 and D6 (log 9); that a pass may observe a stop request before its first step (`some 0`) is log 15. -/
def Obligations.ErrorsStopTheRunAndAreReported : Prop :=
  ∀ (s : State) (f : Fault), step s = .fault f →
    (hostDo .step s).2 = .fault f ∧
    (∀ (n : Nat) (k : Option Nat), k ≠ some 0 → execPass (n + 1) k s = (s, .fault f)) ∧
    (∀ sees : Bool, s.loop.running = true → (sees && s.loop.stopRequest) = false →
      (loopTurn sees s).2 = .fault f ∧ (loopTurn sees s).1.loop.running = false)

/-- A step that errs writes no architectural state, from `step()` or in the run-loop, and the same step errs again
(60_exceptions.md sections 1 and 4; that the PC keeps the failing address is the spec's own decision D19). -/
def Obligations.ErrorsWriteNoArchitecturalState : Prop :=
  ∀ (s : State) (f : Fault), step s = .fault f →
    (hostDo .step s).1.arch = s.arch ∧ (∀ sees : Bool, (loopTurn sees s).1.arch = s.arch) ∧
    step (hostDo .step s).1 = .fault f ∧ f.pc = s.pc

/-- An `exec()` pass is a run of at most the bound's number of steps, ended by the bound, by an observed stop request, or
by the first step that errs, in the state before that step, whichever comes first; and the host's `exec()` is the pass of
`ExecBound` steps, answers how it ended and clears the clean flag (40_step_cycle.md section 4, 60_exceptions.md section 5;
the bound is the spec's own decision D15, the flag R134, log 18). When the request is observed is an input of the pass,
and a request observed right after its last step ends it as a stop and not as the bound: the model's choice (log 15). -/
def Obligations.ExecPassIsABoundedRun : Prop :=
  (∀ (n : Nat) (k : Option Nat) (s t : State) (e : PassEnd), execPass n k s = (t, e) →
    ∃ j : Nat, j ≤ n ∧ Steps j s t ∧
      match e with
      | .bound => j = n ∧ ∀ m : Nat, k = some m → n < m
      | .stopSeen => k = some j
      | .fault f => step t = .fault f ∧ j < n ∧ ∀ m : Nat, k = some m → j < m
      | .refused _ => False) ∧
  (∀ (k : Option Nat) (s t : State) (e : PassEnd), execPass s.params.execBound k s = (t, e) →
    hostDo (.exec k) s = ({ t with clean := false }, .pass e))

/-- A run whose PC is below `0x1000` never ends by itself: after any number of run-loop turns with no stop request the
loop is still running and the architectural state is as it was (40_step_cycle.md section 4; the spec's own derivation). -/
def Obligations.ReservedRunNeverEnds : Prop :=
  ∀ (s : State) (turns : List Bool), s.pc.toNat < 0x1000 → s.loop.running = true → s.loop.stopRequest = false →
    (runEvents (turns.map Event.turn) s).arch = s.arch ∧ (runEvents (turns.map Event.turn) s).loop = s.loop

/-- R130: whatever the interleaving of run-loop turns, stop requests and reads, the state is that after some whole number
of steps; any number of successful steps can be the one after which the loop stops; once a request is observed, the loop
takes no further step. That a turn performs one step and that observing a request is an input of the turn is how the
model leaves the number of steps open (log 14). -/
def Obligations.StopLeavesAPrefixOfTheRun : Prop :=
  (∀ (es : List Event) (s : State), (∀ e ∈ es, Claims.onlyTheLoopWrites e = true) →
    ∃ (k : Nat) (t : State), Steps k s t ∧ (runEvents es s).arch = t.arch) ∧
  (∀ (k : Nat) (s t : State), Steps k s t → s.loop.running = true →
    ∃ es : List Event, (∀ e ∈ es, Claims.onlyTheLoopWrites e = true) ∧
      (runEvents es s).arch = t.arch ∧ (runEvents es s).loop.running = false) ∧
  (∀ s : State, s.loop.running = true → s.loop.stopRequest = true →
    (loopTurn true s).1.arch = s.arch ∧ (loopTurn true s).1.loop.running = false) ∧
  (∀ (s : State) (turns : List Bool), s.loop.running = false → runEvents (turns.map Event.turn) s = s)

/-- `run` starts the run-loop, never a second one, each turn of it performs one step, it ends after an error of that step
or an observed stop request and not after a step in the reserved region, and `is_running()` is a query that changes
nothing (60_exceptions.md section 4). One step a turn is the model's choice (log 14), that a turn clears the clean flag
rests on the spec's own decision D33 (log 18), and that `run` starts no second loop on its D16. -/
def Obligations.RunLoopLifecycle : Prop :=
  (∀ (s : State) (j : Bool), (hostDo (.run j) s).1.loop.running = true ∧ (hostDo (.run j) s).1.arch = s.arch ∧
    (s.loop.running = true → (hostDo (.run j) s).1.loop = s.loop)) ∧
  (∀ (s : State) (sees : Bool), s.loop.running = true → (sees && s.loop.stopRequest) = false →
    (∀ t : State, step s = .next t → (loopTurn sees s).1 = { t with clean := false } ∧
      (loopTurn sees s).1.loop.running = true) ∧
    (∀ f : Fault, step s = .fault f → (loopTurn sees s).1.loop.running = false)) ∧
  (∀ s : State, s.loop.running = true → (hostDo .stop s).1.loop.running = true ∧
    (loopTurn true (hostDo .stop s).1).1.loop.running = false) ∧
  (∀ s : State, hostDo .isRunning s = (s, .flag s.loop.running))

/-- `run` while a run-loop is active changes nothing (60_exceptions.md section 5; the spec's own decision D16). -/
def Obligations.RunWhileRunningChangesNothing : Prop :=
  ∀ (s : State) (j : Bool), s.loop.running = true → hostDo (.run j) s = (s, .ok)

/-! ## The host interface -/

/-- The clean flag: true after `reset()` and a successful `assemble`, false after `step()`, `exec()` and every register
edit that is accepted, and left alone by queries, reads, `run` and `stop` (60_exceptions.md section 5; decisions D33,
D37, log 18). -/
def Obligations.CleanFlagTracksMutation : Prop :=
  ∀ s : State,
    (∀ t : State, hostDo .reset s = (t, .ok) → t.clean = true) ∧
    (∀ (order : ByteOrder) (engine : Engine) (src : Text) (t : State),
      hostDo (.assemble order engine src) s = (t, .ok) → t.clean = true) ∧
    (hostDo .step s).1.clean = false ∧
    (∀ k : Option Nat, (hostDo (.exec k) s).1.clean = false) ∧
    (∀ (name : Text) (v : Word) (t : State), hostDo (.editRegister name v) s = (t, .ok) → t.clean = false) ∧
    (∀ op : HostOp, Claims.opIsQuiet op = true → (hostDo op s).1.clean = s.clean)

/-- The first line that is an error is the error of the whole assembly, whatever follows it; a source text that does not
assemble gives its error to the host and leaves the machine untouched, and so does every other rejection of `assemble`
(60_exceptions.md sections 1 and 5, 20_memory.md section 1). That an active run-loop is untouched too is the model's choice
(log 16). -/
def Obligations.AssemblerErrorsTouchNothing : Prop :=
  (∀ (order : ByteOrder) (src : Text) (before after : List Text) (l : Text) (a : AsmState) (e : AsmError),
    sourceLines src = before ++ l :: after → asmLines order before AsmState.start = .ok a → asmLine order l a = .error e →
    assembleText order src = .error e) ∧
  (∀ (order : ByteOrder) (engine : Engine) (src : Text) (s : State) (e : AsmError),
    assembleText order src = .error e → hostDo (.assemble order engine src) s = (s, .rejected (.assembler e))) ∧
  (∀ (order : ByteOrder) (engine : Engine) (src : Text) (s : State),
    (hostDo (.assemble order engine src) s).2 ≠ .ok → (hostDo (.assemble order engine src) s).1 = s)

/-- A successful `assemble` replaces the executor by a new one, item by item (70_reset_and_hazards.md section 1;
60_exceptions.md section 5; InitGPR and InitPC are parameters, D9, D10, and a running loop is stopped, D34). That the
executor's engine is the one the host asks for at `assemble` is the model's choice (log 5), within the spec's own decision
D18. -/
def Obligations.AssembleMakesANewExecutor : Prop :=
  ∀ (order : ByteOrder) (engine : Engine) (src : Text) (s t : State),
    hostDo (.assemble order engine src) s = (t, .ok) →
    ∃ gs : List Segment, assembleText order src = .ok gs ∧ loadMemory gs = .ok t.mem ∧
      (∀ r : Reg, t.reg r = s.params.initGPR[r]) ∧ t.pc = s.params.initPcLoaded ∧ t.byteOrder = order ∧
      t.engine = engine ∧ (engine = .jit → order = s.params.hostOrder) ∧
      t.loop.running = false ∧ t.loop.stopRequest = false ∧ t.clean = true ∧ t.program = some gs ∧ t.params = s.params

/-- `reset()` restores exactly the state the last successful `assemble` produced, whatever events came between that are
no `assemble` (60_exceptions.md section 5; the spec's own decision D17, log 17). -/
def Obligations.ResetRestoresTheAssembledState : Prop :=
  ∀ (order : ByteOrder) (engine : Engine) (src : Text) (s t : State) (es : List Event),
    hostDo (.assemble order engine src) s = (t, .ok) → (∀ e ∈ es, Claims.noAssemble e = true) →
    hostDo .reset (runEvents es t) = (t, .ok)

/-- `edit_register` writes the register the text names, by a name of R14 or as `$N`, or the PC for `pc`, clears the clean
flag and changes nothing else; every other text is rejected with nothing changed (60_exceptions.md section 5, 10_state.md
section 1). The indices of the names are GK1 and D11, leading zeros in `$N` the model's choice (log 11), `pc` is the spec's
own decision D38 (log 24), the rejection its D24 and D37 and the flag R134 (log 18). -/
def Obligations.EditRegisterWritesTheNamedRegister : Prop :=
  (∀ (s : State) (name : Text) (r : Reg) (v : Word), Claims.NamesRegister name r → ∃ t : State,
    hostDo (.editRegister name v) s = (t, .ok) ∧ t.reg r = v ∧ t.pc = s.pc ∧
    Claims.OnlyRdAndPc r { s with clean := false } t) ∧
  (∀ (s : State) (v : Word),
    hostDo (.editRegister "pc".toList v) s = ({ s with pc := v, clean := false }, .ok)) ∧
  (∀ (s : State) (name : Text) (v : Word), name ≠ "pc".toList → (∀ r : Reg, ¬Claims.NamesRegister name r) →
    hostDo (.editRegister name v) s = (s, .rejected .unknownRegister))

/-- The invariant is kept by every host operation and every run-loop turn, whether it succeeds or not. Of its clauses the
spec states the legal engine, the loadable program and the positive bound; that a request is pending only while a loop
runs is the model's choice (log 14), the loop's engine is log 5, and the form of memory is the model's (log 7). -/
def Obligations.EventsKeepInvariant : Prop :=
  ∀ (e : Event) (s : State), State.Inv s → State.Inv (applyEvent e s).1

/-- The state after reset meets the invariant. The values of the parameters in it are the model's choice (logs 1 to 6). -/
def Obligations.ResetMeetsInvariant : Prop := State.Inv State.reset

/-- In every state whose PC is below `0x1000` the step changes nothing, and so does any number of steps: the state before
any program is one, since its PC is 0 (40_step_cycle.md sections 1 and 4; 70_reset_and_hazards.md section 1). -/
def Obligations.ReservedPcStandsStill : Prop :=
  ∀ s : State, s.pc.toNat < 0x1000 →
    step s = .next s ∧ ∀ n : Nat, Host.Core.run Sys2Proof.core n s = .next s

/-! ## The assembler -/

/-- R90 in part: a source of blank and comment lines only, none too long, yields no segments. -/
def Obligations.BlankSourceYieldsNoSegments : Prop :=
  ∀ (order : ByteOrder) (src : Text),
    (∀ l ∈ sourceLines src, l.length ≤ 8192 ∧ stripLine l = []) → assembleText order src = .ok []

/-- A line of more than 8192 characters is an error of the assembly, comments counted, if every line before it assembles
(30_encoding.md section 6; that comments count is the spec's own decision D26). -/
def Obligations.LongLineIsRejected : Prop :=
  ∀ (order : ByteOrder) (before after : List Text) (l : Text) (a : AsmState),
    asmLines order before AsmState.start = .ok a → 8192 < l.length →
    asmLines order (before ++ l :: after) AsmState.start = .error .lineTooLong

/-- Every segment of a successful assembly has its base address inside its class's range (30_encoding.md section 6: the
default address is checked too, log 20). -/
def Obligations.AssembledBasesAreInRange : Prop :=
  ∀ (order : ByteOrder) (src : Text) (gs : List Segment), assembleText order src = .ok gs →
    ∀ g ∈ gs, match g.cls with
      | .text => 0x00400000 ≤ g.base.toNat ∧ g.base.toNat ≤ 0x0fffffff
      | .data => 0x10000000 ≤ g.base.toNat ∧ g.base.toNat ≤ 0x7fffffff

/-- The high-water mark of a class is at or above the end of every non-empty segment of that class, so a bare directive
continues after the bytes already emitted (30_encoding.md section 6; the mark as a maximum is the spec's own D21). -/
def Obligations.HighWaterMarkCoversEmittedBytes : Prop :=
  ∀ (order : ByteOrder) (lines : List Text) (a : AsmState), asmLines order lines AsmState.start = .ok a →
    ∀ g ∈ a.segments, g.bytes ≠ [] → g.base.toNat + g.bytes.length ≤ a.mark g.cls

/-- One instruction line written with numeric register names assembles, for either byte order, to one TEXT segment at
`0x00400000` holding its encoded word; loaded, and with the PC at that address, the step runs exactly that instruction
(30_encoding.md section 6, 70_reset_and_hazards.md section 2; the default base address is D20, the byte order of the
emitted word D22). That a newline ends a line and a blank separates tokens is the model's choice (log 20), as is that the
host asks for the engine (log 5). -/
def Obligations.AssembledInstructionRuns : Prop :=
  ∀ (order : ByteOrder) (m : Mnemonic) (rd rs rt : Reg) (s : State), ∃ t : State,
    hostDo (.assemble order .interpreter (Claims.oneInstructionSource m rd rs rt)) s = (t, .ok) ∧
    t.program = some [⟨.text, 0x00400000#32, encodeBytes order (m.build ⟨rd, rs, rt, 0⟩)⟩] ∧
    step (hostDo (.writePc 0x00400000#32) t).1 = exec (m.build ⟨rd, rs, rt, 0⟩) (hostDo (.writePc 0x00400000#32) t).1

/-! ## Reset -/

/-- The state before any program, field by field (70_reset_and_hazards.md section 1). Memory of zeros, the run-loop not
running, no request, the clean flag true and no program are the spec's; the registers' zeros (log 3), the PC's 0 (log 4), the
byte order (log 1), the two engines (log 5) and the parameters' values (logs 2 to 6) are the model's choice, where the spec
names a default that default. -/
def Obligations.ResetStateFields : Prop :=
  (∀ a : Nat, Memory.read State.reset.mem a = 0#8) ∧ State.reset.mem = [] ∧
  State.reset.loop = ⟨false, false, .interpreter⟩ ∧ State.reset.clean = true ∧ State.reset.program = none ∧
  (∀ r : Reg, State.reset.reg r = 0#32) ∧ State.reset.pc = 0#32 ∧
  State.reset.byteOrder = .little ∧ State.reset.engine = .interpreter ∧
  State.reset.params = ⟨.signed, .little, Vector.replicate 32 0#32, 0#32, 0x00400000#32, 1024⟩

/-! ## Bytes the host writes -/

/-- A byte the host writes reads back at any address; every other byte and the rest of the state are unchanged
(20_memory.md section 4, 60_exceptions.md section 5). That the host's writes are byte-granular is the spec's own decision
D13; that they leave the clean flag is the model's choice (log 18), and the canonical form of memory is the model's own
(log 7). -/
def Obligations.HostByteWriteReadsBack : Prop :=
  ∀ (s : State) (a : Word) (b : Byte), s.mem.wf = true → ∃ t : State,
    hostDo (.writeByte a b) s = (t, .ok) ∧ hostDo (.readByte a) t = (t, .bytes [b]) ∧
    (∀ x : Word, x ≠ a → hostDo (.readByte x) t = (t, .bytes [Memory.read s.mem x.toNat])) ∧
    (∀ x : Nat, x ≠ a.toNat → Memory.read t.mem x = Memory.read s.mem x) ∧ t.mem.wf = true ∧
    t = { s with mem := t.mem }
end

