-- ==== Sys2Proof/Laws/Assembler.lean ====
section
/-! SUPPORT. What one line of the assembler can do, and the induction over lines, each once. -/

namespace Sys2Proof.Machine

/-- What opening a segment does, when it succeeds. -/
theorem AsmState.openAt_ok {a a' : AsmState} {c : SegClass} {b : Nat} (h : a.openAt c b = .ok a') :
    c.inRange b = true ∧
      a' = { a with done := a.segments, cur := some { cls := c, base := BitVec.ofNat 32 b, bytes := [] } } := by
  unfold AsmState.openAt at h
  split at h
  · cases h
    exact ⟨‹_›, rfl⟩
  · cases h

theorem asmOpen_ok {c : SegClass} {args : List Text} {a a' : AsmState} (h : asmOpen c args a = .ok a') :
    ∃ b, a.openAt c b = .ok a' := by
  unfold asmOpen at h
  split at h
  · exact ⟨_, h⟩
  · split at h
    · exact ⟨_, h⟩
    · cases h
  · cases h

theorem asmGlobl_ok {args : List Text} {a a' : AsmState} (h : asmGlobl args a = .ok a') :
    ∃ n, a' = { a with globals := n } := by
  unfold asmGlobl at h
  split at h <;> cases h
  exact ⟨_, rfl⟩

theorem asmWord_ok {order : ByteOrder} {rest : Text} {a a' : AsmState} (h : asmWord order rest a = .ok a') :
    ∃ g bs, a.cur = some g ∧ a' = a.append g bs := by
  unfold asmWord at h
  split at h
  · cases h
  · rename_i hg
    split at h
    · cases h
      exact ⟨_, _, hg, rfl⟩
    · cases h

theorem asmInstr_ok {order : ByteOrder} {tok rest : Text} {a a' : AsmState} (h : asmInstr order tok rest a = .ok a') :
    ∃ g bs, a.cur = some g ∧ a' = a.append g bs := by
  unfold asmInstr at h
  split at h
  · cases h
  · split at h
    · cases h
    · split at h
      · cases h
      · rename_i hg
        cases h
        exact ⟨_, _, hg, rfl⟩

/-- A line that assembles does nothing, opens a segment, records a name, or appends bytes to the open segment. -/
theorem asmLine_ok {order : ByteOrder} {l : Text} {a a' : AsmState} (h : asmLine order l a = .ok a') :
    a' = a ∨ (∃ c b, a.openAt c b = .ok a') ∨ (∃ n, a' = { a with globals := n }) ∨
      (∃ g bs, a.cur = some g ∧ a' = a.append g bs) := by
  simp only [asmLine] at h
  split at h
  · cases h
  · split at h
    · cases h
      exact .inl rfl
    · simp only [asmDispatch] at h
      split at h
      · exact .inr (.inl ⟨_, asmOpen_ok h⟩)
      · split at h
        · exact .inr (.inl ⟨_, asmOpen_ok h⟩)
        · split at h
          · exact .inr (.inr (.inl (asmGlobl_ok h)))
          · split at h
            · exact .inr (.inr (.inr (asmWord_ok h)))
            · exact .inr (.inr (.inr (asmInstr_ok h)))

/-- The induction over lines: what every line keeps, the assembly keeps. -/
theorem asmLines_keeps {order : ByteOrder} {P : AsmState → Prop}
    (hline : ∀ {l : Text} {a a' : AsmState}, P a → asmLine order l a = .ok a' → P a') :
    ∀ {ls : List Text} {a a' : AsmState}, P a → asmLines order ls a = .ok a' → P a' := by
  intro ls
  induction ls with
  | nil => intro a a' h h'; cases h'; exact h
  | cons l ls ih =>
    intro a a' h h'
    simp only [asmLines] at h'
    split at h'
    · rename_i hl
      exact ih (hline h hl) h'
    · cases h'

/-- Lines that assemble, followed by others. -/
theorem asmLines_append {order : ByteOrder} {ls ms : List Text} :
    ∀ {a b : AsmState}, asmLines order ls a = .ok b → asmLines order (ls ++ ms) a = asmLines order ms b := by
  induction ls with
  | nil => intro a b h; cases h; rfl
  | cons l ls ih =>
    intro a b h
    simp only [asmLines, List.cons_append] at h ⊢
    split at h
    · exact ih h
    · cases h

/-- The segments after bytes were appended to the open one. -/
theorem AsmState.segments_append (a : AsmState) (g : Segment) (bs : List Byte) :
    (a.append g bs).segments = a.done ++ [{ g with bytes := g.bytes ++ bs }] := by
  unfold AsmState.append AsmState.raiseMark AsmState.segments
  cases g.cls <;> rfl

end Sys2Proof.Machine
end

