-- ==== Sys2Proof/Laws/Codec.lean ====
section
/-! SUPPORT. The laws of the codec's parts: the funct table read both ways, and each field of an encoded word. -/

namespace Sys2Proof

@[simp] theorem Mnemonic.build_mnemonic (m : Mnemonic) (o : ROps) : (m.build o).mnemonic = m := by cases m <;> rfl
@[simp] theorem Mnemonic.build_ops (m : Mnemonic) (o : ROps) : (m.build o).ops = o := by cases m <;> rfl
@[simp] theorem Instr.build_mnemonic_ops (i : Instr) : i.mnemonic.build i.ops = i := by cases i <;> rfl

/-- The table read from funct code to mnemonic undoes the table read from mnemonic to funct code. -/
@[simp] theorem mnemonicOfFunct_funct (m : Mnemonic) : mnemonicOfFunct m.funct = some m := by cases m <;> decide

/-- A funct code is found exactly where a mnemonic has it. -/
theorem mnemonicOfFunct_eq_some {f : BitVec 6} {m : Mnemonic} : mnemonicOfFunct f = some m ↔ m.funct = f := by
  constructor
  · intro h
    have := List.find?_some h
    simpa using this
  · rintro rfl
    exact mnemonicOfFunct_funct m

@[simp] theorem encode_build (m : Mnemonic) (o : ROps) : encode (m.build o) = encodeFields m o := by
  simp [encode]

/-! ## Each field of an encoded word -/

@[simp] theorem opcodeField_encodeFields (m : Mnemonic) (o : ROps) : opcodeField (encodeFields m o) = 0#6 := by
  apply BitVec.eq_of_getLsbD_eq
  intro i hi
  simp only [opcodeField, encodeFields, BitVec.getLsbD_extractLsb', BitVec.getLsbD_append]
  simp [show ¬ 26 + i < 6 by omega, show ¬ 26 + i - 6 < 5 by omega, show ¬ 26 + i - 6 - 5 < 5 by omega,
    show ¬ 26 + i - 6 - 5 - 5 < 5 by omega, show ¬ 26 + i - 6 - 5 - 5 - 5 < 5 by omega]

@[simp] theorem functField_encodeFields (m : Mnemonic) (o : ROps) : functField (encodeFields m o) = m.funct := by
  apply BitVec.eq_of_getLsbD_eq
  intro i hi
  simp only [functField, encodeFields, BitVec.getLsbD_extractLsb', BitVec.getLsbD_append]
  simp [hi]

theorem bits_shamt (m : Mnemonic) (o : ROps) :
    (encodeFields m o).extractLsb' 6 5 = (BitVec.ofFin o.shamt : BitVec 5) := by
  apply BitVec.eq_of_getLsbD_eq
  intro i hi
  simp only [encodeFields, BitVec.getLsbD_extractLsb', BitVec.getLsbD_append]
  simp [hi, show ¬ 6 + i < 6 by omega]

theorem bits_rd (m : Mnemonic) (o : ROps) :
    (encodeFields m o).extractLsb' 11 5 = (BitVec.ofFin o.rd : BitVec 5) := by
  apply BitVec.eq_of_getLsbD_eq
  intro i hi
  simp only [encodeFields, BitVec.getLsbD_extractLsb', BitVec.getLsbD_append]
  simp [hi, show ¬ 11 + i < 6 by omega, show ¬ 11 + i - 6 < 5 by omega, show 11 + i - 6 - 5 = i by omega]

theorem bits_rt (m : Mnemonic) (o : ROps) :
    (encodeFields m o).extractLsb' 16 5 = (BitVec.ofFin o.rt : BitVec 5) := by
  apply BitVec.eq_of_getLsbD_eq
  intro i hi
  simp only [encodeFields, BitVec.getLsbD_extractLsb', BitVec.getLsbD_append]
  simp [hi, show ¬ 16 + i < 6 by omega, show ¬ 16 + i - 6 < 5 by omega, show ¬ 16 + i - 6 - 5 < 5 by omega,
    show 16 + i - 6 - 5 - 5 = i by omega]

theorem bits_rs (m : Mnemonic) (o : ROps) :
    (encodeFields m o).extractLsb' 21 5 = (BitVec.ofFin o.rs : BitVec 5) := by
  apply BitVec.eq_of_getLsbD_eq
  intro i hi
  simp only [encodeFields, BitVec.getLsbD_extractLsb', BitVec.getLsbD_append]
  simp [hi, show ¬ 21 + i < 6 by omega, show ¬ 21 + i - 6 < 5 by omega, show ¬ 21 + i - 6 - 5 < 5 by omega,
    show ¬ 21 + i - 6 - 5 - 5 < 5 by omega, show 21 + i - 6 - 5 - 5 - 5 = i by omega]

/-- The decoder's operand fields of an encoded word are the operands. -/
@[simp] theorem operandFields_encodeFields (m : Mnemonic) (o : ROps) : operandFields (encodeFields m o) = o := by
  simp [operandFields, indexField, bits_rs, bits_rt, bits_rd, bits_shamt]

/-! ## What the decoder answers -/

/-- The spec's `decode` and the decoder with reasons agree. -/
theorem decode_eq_some {w : Word} {i : Instr} : decode w = some i ↔ decodeWord w = .ok i := by
  unfold decode
  cases decodeWord w <;> simp

/-- A word decodes exactly where its opcode field is 0 and its funct code is a mnemonic's. -/
theorem decodeWord_ok_iff {w : Word} {i : Instr} :
    decodeWord w = .ok i ↔
      opcodeField w = 0#6 ∧ i.mnemonic.funct = functField w ∧ i.ops = operandFields w := by
  unfold decodeWord
  by_cases h : opcodeField w = 0#6
  · simp only [h, ne_eq, not_true, if_false, true_and]
    cases hm : mnemonicOfFunct (functField w) with
    | none =>
      constructor
      · intro h'; cases h'
      · rintro ⟨h1, -⟩
        rw [mnemonicOfFunct_eq_some.mpr h1] at hm
        cases hm
    | some m =>
      have hf := mnemonicOfFunct_eq_some.mp hm
      constructor
      · intro h'
        cases h'
        simp [hf]
      · rintro ⟨h1, h2⟩
        have : i.mnemonic = m := by
          have := mnemonicOfFunct_eq_some.mpr h1
          rw [hm] at this
          exact (Option.some.inj this).symm
        subst this
        simp only [← h2, Instr.build_mnemonic_ops]
  · simp [h]

end Sys2Proof
end

