-- ==== Sys2Proof/Laws/Memory.lean ====
section
/-! SUPPORT. The laws of the memory operations: what a read gives after a write, and that every operation keeps the
canonical form. -/

namespace Sys2Proof.Machine

@[simp] theorem Memory.read_nil (a : Nat) : Memory.read [] a = 0#8 := rfl

/-- Below the first address a canonical memory may list, every byte reads zero. -/
theorem Memory.read_below {m : Memory} : ∀ {lo a : Nat}, Memory.wfFrom lo m = true → a < lo → Memory.read m a = 0#8 := by
  induction m with
  | nil => intros; rfl
  | cons c m ih =>
    intro lo a h hlt
    obtain ⟨k, v⟩ := c
    simp only [Memory.wfFrom, Bool.and_eq_true, decide_eq_true_eq] at h
    have hne : a ≠ k := by omega
    simp only [Memory.read, hne, if_false]
    exact ih h.2 (by omega)

/-- The canonical form from an address holds from every lower one. -/
theorem Memory.wfFrom_mono {m : Memory} {lo lo' : Nat} (h : Memory.wfFrom lo m = true) (hle : lo' ≤ lo) :
    Memory.wfFrom lo' m = true := by
  cases m with
  | nil => rfl
  | cons c m =>
    obtain ⟨k, v⟩ := c
    simp only [Memory.wfFrom, Bool.and_eq_true, decide_eq_true_eq] at h ⊢
    exact ⟨⟨⟨by omega, h.1.1.2⟩, h.1.2⟩, h.2⟩

/-- A byte reads back, every other byte reads as before. -/
theorem Memory.read_write {m : Memory} :
    ∀ {lo : Nat} (_ : Memory.wfFrom lo m = true) (a : Nat) (b : Byte) (x : Nat),
      Memory.read (Memory.write m a b) x = if x = a then b else Memory.read m x := by
  induction m with
  | nil =>
    intro lo _ a b x
    by_cases hb : b = 0#8
    · simp [Memory.write, hb]
    · simp [Memory.write, hb, Memory.read]
  | cons c m ih =>
    intro lo h a b x
    obtain ⟨k, v⟩ := c
    simp only [Memory.wfFrom, Bool.and_eq_true, decide_eq_true_eq] at h
    have below : ∀ {y}, y ≤ k → Memory.read m y = 0#8 := fun hy => Memory.read_below h.2 (by omega)
    by_cases h1 : a < k
    · by_cases hb : b = 0#8
      · simp only [Memory.write, h1, hb, if_true]
        by_cases hx : x = a
        · have hne : x ≠ k := by omega
          simp only [Memory.read, hx, if_true, show a ≠ k by omega, if_false, below (Nat.le_of_lt h1)]
        · simp [hx]
      · simp [Memory.write, h1, hb, Memory.read]
    · by_cases h2 : a = k
      · by_cases hb : b = 0#8
        · simp only [Memory.write, h2, hb, if_true, Nat.lt_irrefl, if_false]
          by_cases hx : x = k
          · simp [hx, below (Nat.le_refl k)]
          · simp [Memory.read, hx]
        · by_cases hx : x = a
          · simp [Memory.write, hb, Memory.read, ← h2, hx]
          · simp [Memory.write, hb, Memory.read, ← h2, hx]
      · simp only [Memory.write, h1, h2, if_false, Memory.read]
        rw [ih h.2 a b x]
        by_cases hx : x = k
        · simp [hx, Ne.symm h2]
        · simp [hx]

/-- A write inside the address space keeps the canonical form. -/
theorem Memory.wfFrom_write {m : Memory} :
    ∀ {lo a : Nat} (b : Byte), Memory.wfFrom lo m = true → lo ≤ a → a < Config.addressSpace →
      Memory.wfFrom lo (Memory.write m a b) = true := by
  induction m with
  | nil =>
    intro lo a b _ hlo ha
    by_cases hb : b = 0#8
    · simp [Memory.write, hb, Memory.wfFrom]
    · simp [Memory.write, hb, Memory.wfFrom, hlo, ha]
  | cons c m ih =>
    intro lo a b h hlo ha
    obtain ⟨k, v⟩ := c
    have h' := h
    simp only [Memory.wfFrom, Bool.and_eq_true, decide_eq_true_eq] at h
    by_cases h1 : a < k
    · by_cases hb : b = 0#8
      · simpa only [Memory.write, h1, hb, if_true] using h'
      · simp only [Memory.write, h1, hb, if_true, if_false, Memory.wfFrom, Bool.and_eq_true, decide_eq_true_eq]
        exact ⟨⟨⟨hlo, ha⟩, hb⟩, ⟨⟨by omega, h.1.1.2⟩, h.1.2⟩, h.2⟩
    · by_cases h2 : a = k
      · by_cases hb : b = 0#8
        · simp only [Memory.write, h2, hb, Nat.lt_irrefl, if_false, if_true]
          exact Memory.wfFrom_mono h.2 (by omega)
        · simp only [Memory.write, h2, hb, Nat.lt_irrefl, if_false, if_true, Memory.wfFrom, Bool.and_eq_true,
            decide_eq_true_eq]
          exact ⟨⟨⟨by omega, by omega⟩, hb⟩, h.2⟩
      · simp only [Memory.write, h1, h2, if_false, Memory.wfFrom, Bool.and_eq_true, decide_eq_true_eq]
        exact ⟨h.1, ih b h.2 (by omega) ha⟩

/-- `write` keeps the canonical form. -/
theorem Memory.wf_write {m : Memory} {a : Nat} (b : Byte) (h : m.wf = true) (ha : a < Config.addressSpace) :
    (Memory.write m a b).wf = true :=
  Memory.wfFrom_write b h (Nat.zero_le _) ha

/-- `read` after `write` on a canonical memory. -/
theorem Memory.read_write_wf {m : Memory} (h : m.wf = true) (a : Nat) (b : Byte) (x : Nat) :
    Memory.read (Memory.write m a b) x = if x = a then b else Memory.read m x :=
  Memory.read_write h a b x

/-- `writeBytes` keeps the canonical form. -/
theorem Memory.wf_writeBytes {bs : List Byte} :
    ∀ {m : Memory} {a : Nat}, m.wf = true → a + bs.length ≤ Config.addressSpace → (m.writeBytes a bs).wf = true := by
  induction bs with
  | nil => intro m a h _; exact h
  | cons b bs ih =>
    intro m a h hle
    simp only [List.length_cons] at hle
    exact ih (Memory.wf_write b h (by omega)) (by omega)

/-- What a byte reads after a run of bytes was written. -/
theorem Memory.read_writeBytes {bs : List Byte} :
    ∀ {m : Memory} {a : Nat}, m.wf = true → a + bs.length ≤ Config.addressSpace → ∀ x : Nat,
      Memory.read (m.writeBytes a bs) x =
        if a ≤ x ∧ x < a + bs.length then bs.getD (x - a) 0#8 else Memory.read m x := by
  induction bs with
  | nil =>
    intro m a _ _ x
    have : ¬(a ≤ x ∧ x < a + 0) := by omega
    simp only [Memory.writeBytes, List.length_nil, this, if_false]
  | cons b bs ih =>
    intro m a h hle x
    simp only [List.length_cons] at hle
    simp only [Memory.writeBytes]
    rw [ih (Memory.wf_write b h (by omega)) (by omega) x, Memory.read_write_wf h]
    by_cases hx : x = a
    · have h1 : ¬(a + 1 ≤ x ∧ x < a + 1 + bs.length) := by omega
      have h2 : a ≤ x ∧ x < a + (b :: bs).length := by simp; omega
      rw [if_neg h1, if_pos h2, if_pos hx, hx, Nat.sub_self, List.getD_cons_zero]
    · by_cases h2 : a ≤ x ∧ x < a + (b :: bs).length
      · have h1 : a + 1 ≤ x ∧ x < a + 1 + bs.length := by simp at h2; omega
        have h3 : x - a = (x - (a + 1)) + 1 := by omega
        rw [if_pos h1, if_pos h2, h3, List.getD_cons_succ]
      · have h1 : ¬(a + 1 ≤ x ∧ x < a + 1 + bs.length) := by simp at h2; omega
        rw [if_neg h1, if_neg h2, if_neg hx]

@[simp] theorem Memory.length_readBytes (m : Memory) (a n : Nat) : (m.readBytes a n).length = n := by
  simp [Memory.readBytes]

@[simp] theorem length_splitWord (order : ByteOrder) (v : Word) : (splitWord order v).length = 4 := by
  cases order <;> rfl

/-- `writeWord` keeps the canonical form. -/
theorem Memory.wf_writeWord {m : Memory} {order : ByteOrder} {a : Nat} (v : Word) (h : m.wf = true)
    (ha : a + 4 ≤ Config.addressSpace) : (m.writeWord order a v).wf = true :=
  Memory.wf_writeBytes h (by simpa using ha)

/-- What a byte reads after a word was written. -/
theorem Memory.read_writeWord {m : Memory} (order : ByteOrder) {a : Nat} (v : Word) (h : m.wf = true)
    (ha : a + 4 ≤ Config.addressSpace) (x : Nat) :
    Memory.read (m.writeWord order a v) x =
      if a ≤ x ∧ x < a + 4 then (splitWord order v).getD (x - a) 0#8 else Memory.read m x := by
  have := Memory.read_writeBytes (bs := splitWord order v) h (by simpa using ha) x
  simpa [Memory.writeWord] using this

/-- Putting the four bytes of a word back together. -/
theorem joinBytes_splitWord (order : ByteOrder) (v : Word) :
    joinBytes order ((splitWord order v).getD 0 0#8) ((splitWord order v).getD 1 0#8)
      ((splitWord order v).getD 2 0#8) ((splitWord order v).getD 3 0#8) = v := by
  cases order <;>
  · simp only [splitWord, joinBytes, List.getD_cons_zero, List.getD_cons_succ]
    apply BitVec.eq_of_getLsbD_eq
    intro i hi
    simp only [BitVec.getLsbD_append, BitVec.getLsbD_extractLsb']
    by_cases h0 : i < 8
    · simp [h0]
    · by_cases h1 : i < 16
      · simp [h0, show i - 8 < 8 by omega, show 8 + (i - 8) = i by omega]
      · by_cases h2 : i < 24
        · simp [h0, show ¬ i - 8 < 8 by omega, show i - 8 - 8 < 8 by omega, show 16 + (i - 8 - 8) = i by omega]
        · simp [h0, show ¬ i - 8 < 8 by omega, show ¬ i - 8 - 8 < 8 by omega, show i - 8 - 8 - 8 < 8 by omega,
            show 24 + (i - 8 - 8 - 8) = i by omega]

/-- A word reads back after it was written. -/
theorem Memory.readWord_writeWord {m : Memory} (order : ByteOrder) {a : Nat} (v : Word) (h : m.wf = true)
    (ha : a + 4 ≤ Config.addressSpace) : (m.writeWord order a v).readWord order a = v := by
  unfold Memory.readWord
  rw [Memory.read_writeWord order v h ha, Memory.read_writeWord order v h ha, Memory.read_writeWord order v h ha,
    Memory.read_writeWord order v h ha]
  simpa using joinBytes_splitWord order v

/-! ## Segments -/

/-- A segment fits exactly where it ends at or below the top. -/
theorem Segment.fits_iff (g : Segment) : g.fits = true ↔ g.base.toNat + g.bytes.length ≤ Config.addressSpace := by
  exact decide_eq_true_iff

/-- Two segments do not overlap exactly where the later start is at or above the earlier end. -/
theorem Segment.overlaps_eq_false_iff (g h : Segment) :
    g.overlaps h = false ↔
      min (g.base.toNat + g.bytes.length) (h.base.toNat + h.bytes.length) ≤ max g.base.toNat h.base.toNat := by
  exact decide_eq_false_iff_not.trans Nat.not_lt

/-- Loading one segment keeps the canonical form. -/
theorem wf_loadSegment {m : Memory} {g : Segment} (h : m.wf = true) (hg : g.fits = true) : (loadSegment m g).wf = true := by
  exact Memory.wf_writeBytes h ((Segment.fits_iff g).mp hg)

/-- Loading segments keeps the canonical form. -/
theorem wf_foldl_loadSegment {gs : List Segment} :
    ∀ {m : Memory}, m.wf = true → gs.all Segment.fits = true → (gs.foldl loadSegment m).wf = true := by
  induction gs with
  | nil => intro m h _; exact h
  | cons g gs ih =>
    intro m h hg
    simp only [List.all_cons, Bool.and_eq_true] at hg
    exact ih (wf_loadSegment h hg.1) hg.2

/-- When `loadMemory` succeeds: the program is one a memory can be built from, and the memory is the fold. -/
theorem loadMemory_ok_iff {gs : List Segment} {m : Memory} :
    loadMemory gs = .ok m ↔ programWf gs = true ∧ m = gs.foldl loadSegment [] := by
  unfold loadMemory programWf
  by_cases h1 : gs.all Segment.fits = true
  · by_cases h2 : segmentsDisjoint gs = true
    · simp [h1, h2, eq_comm]
    · simp [h1, h2]
  · simp [h1]

/-- `loadMemory` makes a canonical memory. -/
theorem wf_loadMemory {gs : List Segment} {m : Memory} (h : loadMemory gs = .ok m) : m.wf = true := by
  obtain ⟨hw, rfl⟩ := loadMemory_ok_iff.mp h
  simp only [programWf, Bool.and_eq_true] at hw
  exact wf_foldl_loadSegment rfl hw.1

end Sys2Proof.Machine
end

