-- ==== Sys2Proof/Laws/State.lean ====
section
/-! SUPPORT. The small laws of the state's updates: one per field per update. -/

namespace Sys2Proof.Machine

/-! ## `setReg` -/

@[simp] theorem State.setReg_pc (s : State) (r : Reg) (v : Word) : (s.setReg r v).pc = s.pc := rfl
@[simp] theorem State.setReg_mem (s : State) (r : Reg) (v : Word) : (s.setReg r v).mem = s.mem := rfl
@[simp] theorem State.setReg_byteOrder (s : State) (r : Reg) (v : Word) : (s.setReg r v).byteOrder = s.byteOrder := rfl
@[simp] theorem State.setReg_engine (s : State) (r : Reg) (v : Word) : (s.setReg r v).engine = s.engine := rfl
@[simp] theorem State.setReg_loop (s : State) (r : Reg) (v : Word) : (s.setReg r v).loop = s.loop := rfl
@[simp] theorem State.setReg_clean (s : State) (r : Reg) (v : Word) : (s.setReg r v).clean = s.clean := rfl
@[simp] theorem State.setReg_program (s : State) (r : Reg) (v : Word) : (s.setReg r v).program = s.program := rfl
@[simp] theorem State.setReg_params (s : State) (r : Reg) (v : Word) : (s.setReg r v).params = s.params := rfl

@[simp] theorem State.reg_setReg_same (s : State) (r : Reg) (v : Word) : (s.setReg r v).reg r = v := by
  simp [State.reg, State.setReg]

theorem State.reg_setReg_other (s : State) {q r : Reg} (v : Word) (h : q ≠ r) : (s.setReg r v).reg q = s.reg q := by
  have hv : r.val ≠ q.val := fun e => h (Fin.ext e.symm)
  simp [State.reg, State.setReg, Vector.getElem_set_ne _ _ hv]

theorem State.reg_setReg (s : State) (q r : Reg) (v : Word) :
    (s.setReg r v).reg q = if q = r then v else s.reg q := by
  by_cases h : q = r
  · subst h; simp
  · simp [h, State.reg_setReg_other]

/-! ## `setPc` -/

@[simp] theorem State.setPc_pc (s : State) (v : Word) : (s.setPc v).pc = v := rfl
@[simp] theorem State.setPc_regs (s : State) (v : Word) : (s.setPc v).regs = s.regs := rfl
@[simp] theorem State.setPc_reg (s : State) (v : Word) (r : Reg) : (s.setPc v).reg r = s.reg r := rfl
@[simp] theorem State.setPc_mem (s : State) (v : Word) : (s.setPc v).mem = s.mem := rfl
@[simp] theorem State.setPc_byteOrder (s : State) (v : Word) : (s.setPc v).byteOrder = s.byteOrder := rfl
@[simp] theorem State.setPc_engine (s : State) (v : Word) : (s.setPc v).engine = s.engine := rfl
@[simp] theorem State.setPc_loop (s : State) (v : Word) : (s.setPc v).loop = s.loop := rfl
@[simp] theorem State.setPc_clean (s : State) (v : Word) : (s.setPc v).clean = s.clean := rfl
@[simp] theorem State.setPc_program (s : State) (v : Word) : (s.setPc v).program = s.program := rfl
@[simp] theorem State.setPc_params (s : State) (v : Word) : (s.setPc v).params = s.params := rfl

/-! ## `retire` -/

@[simp] theorem State.retire_pc (s : State) (r : Reg) (v : Word) : (s.retire r v).pc = s.pc + 4#32 := rfl
@[simp] theorem State.retire_mem (s : State) (r : Reg) (v : Word) : (s.retire r v).mem = s.mem := rfl
@[simp] theorem State.retire_byteOrder (s : State) (r : Reg) (v : Word) : (s.retire r v).byteOrder = s.byteOrder := rfl
@[simp] theorem State.retire_engine (s : State) (r : Reg) (v : Word) : (s.retire r v).engine = s.engine := rfl
@[simp] theorem State.retire_loop (s : State) (r : Reg) (v : Word) : (s.retire r v).loop = s.loop := rfl
@[simp] theorem State.retire_clean (s : State) (r : Reg) (v : Word) : (s.retire r v).clean = s.clean := rfl
@[simp] theorem State.retire_program (s : State) (r : Reg) (v : Word) : (s.retire r v).program = s.program := rfl
@[simp] theorem State.retire_params (s : State) (r : Reg) (v : Word) : (s.retire r v).params = s.params := rfl

theorem State.reg_retire (s : State) (q r : Reg) (v : Word) :
    (s.retire r v).reg q = if q = r then v else s.reg q := by
  simp [State.retire, State.reg_setReg]

@[simp] theorem State.reg_retire_same (s : State) (r : Reg) (v : Word) : (s.retire r v).reg r = v := by
  simp [State.reg_retire]

/-- Equal registers, one by one, are equal register files. -/
theorem State.regs_ext {s t : State} (h : ∀ r : Reg, s.reg r = t.reg r) : s.regs = t.regs := by
  apply Vector.ext
  intro k hk
  exact h ⟨k, hk⟩

/-! ## `endLoop` -/

@[simp] theorem State.endLoop_arch (s : State) : s.endLoop.arch = s.arch := rfl
@[simp] theorem State.endLoop_clean (s : State) : s.endLoop.clean = s.clean := rfl
@[simp] theorem State.endLoop_engine (s : State) : s.endLoop.engine = s.engine := rfl
@[simp] theorem State.endLoop_program (s : State) : s.endLoop.program = s.program := rfl
@[simp] theorem State.endLoop_params (s : State) : s.endLoop.params = s.params := rfl
@[simp] theorem State.endLoop_running (s : State) : s.endLoop.loop.running = false := rfl
@[simp] theorem State.endLoop_stopRequest (s : State) : s.endLoop.loop.stopRequest = false := rfl

/-! ## `arch` -/

@[simp] theorem State.arch_regs (s : State) : s.arch.regs = s.regs := rfl
@[simp] theorem State.arch_pc (s : State) : s.arch.pc = s.pc := rfl
@[simp] theorem State.arch_mem (s : State) : s.arch.mem = s.mem := rfl
@[simp] theorem State.arch_byteOrder (s : State) : s.arch.byteOrder = s.byteOrder := rfl

/-- Two states of the same architectural part: the parts are equal. -/
theorem State.arch_eq_iff (s t : State) :
    s.arch = t.arch ↔ s.regs = t.regs ∧ s.pc = t.pc ∧ s.mem = t.mem ∧ s.byteOrder = t.byteOrder := by
  simp [State.arch]

end Sys2Proof.Machine
end

