-- ==== Sys2Proof/Laws/Step.lean ====
section
/-! SUPPORT. What the meanings and the step can do, said once. -/

namespace Sys2Proof.Machine

/-- The result word of an instruction in a state. -/
def resultWord (i : Instr) (s : State) : Word :=
  match i with
  | .and o => s.srcA o &&& s.srcB o
  | .or o => s.srcA o ||| s.srcB o
  | .add o => s.srcA o + s.srcB o
  | .sub o => s.srcA o - s.srcB o
  | .slt o => conditionWord (lessThan s.params.sltCompare (s.srcA o) (s.srcB o))

/-- Every instruction completes: its result goes to `rd`, the PC advances, and nothing else happens. -/
theorem exec_eq_retire (i : Instr) (s : State) : exec i s = .next (s.retire i.ops.rd (resultWord i s)) := by
  cases i <;> rfl

/-- What `issue` answers `run` for: a legal PC and a word that decodes. -/
theorem issue_eq_run {s : State} {i : Instr} :
    issue s = .run i ↔ executablePc s.pc = true ∧ decode (fetchWord s) = some i := by
  unfold issue executablePc
  by_cases h1 : s.pc.toNat < Config.reservedBoundary
  · simp [h1, Nat.not_le.mpr h1]
  · by_cases h2 : s.pc.toNat % 4 = 0
    · simp only [h1, h2, ne_eq, not_true, if_false, Nat.le_of_not_lt h1, decide_true, Bool.true_and, decide_eq_true_eq]
      cases decode (fetchWord s) with
      | none => simp
      | some j =>
        by_cases h3 : s.pc = Config.topWord
        · simp [h3]
        · simp [h3]
    · simp [h1, h2]

theorem issue_eq_reserved {s : State} : issue s = .reserved ↔ s.pc.toNat < Config.reservedBoundary := by
  unfold issue
  by_cases h1 : s.pc.toNat < Config.reservedBoundary
  · simp [h1]
  · simp only [h1, if_false, iff_false]
    split
    · intro h; cases h
    · split
      · intro h; cases h
      · split <;> intro h <;> cases h

/-- A successful step did nothing in the reserved region, or executed the instruction it fetched. -/
theorem step_eq_next {s t : State} (h : step s = .next t) :
    (s.pc.toNat < Config.reservedBoundary ∧ t = s) ∨
    (∃ i, executablePc s.pc = true ∧ decode (fetchWord s) = some i ∧ t = s.retire i.ops.rd (resultWord i s)) := by
  unfold step at h
  cases hi : issue s with
  | reserved =>
    rw [hi] at h
    cases h
    exact .inl ⟨issue_eq_reserved.mp hi, rfl⟩
  | stop f => rw [hi] at h; cases h
  | run i =>
    rw [hi] at h
    have h' : exec i s = .next t := h
    rw [exec_eq_retire] at h'
    cases h'
    obtain ⟨h1, h2⟩ := issue_eq_run.mp hi
    exact .inr ⟨i, h1, h2, rfl⟩

/-- The step in the reserved region. -/
theorem step_reserved {s : State} (h : s.pc.toNat < Config.reservedBoundary) : step s = .next s := by
  unfold step
  rw [issue_eq_reserved.mpr h]

/-- The step at an executable PC whose word decodes. -/
theorem step_run {s : State} {i : Instr} (h1 : executablePc s.pc = true) (h2 : decode (fetchWord s) = some i) :
    step s = .next (s.retire i.ops.rd (resultWord i s)) := by
  unfold step
  rw [issue_eq_run.mpr ⟨h1, h2⟩]
  exact exec_eq_retire i s

/-- The step where the checks stop it. -/
theorem step_stop {s : State} {f : Fault} (h : issue s = .stop f) : step s = .fault f := by
  unfold step
  rw [h]

/-- No step is refused: every instruction has a meaning. -/
theorem step_ne_refused (s : State) (r : Refusal) : step s ≠ .refused r := by
  unfold step
  cases issue s with
  | reserved => intro h; cases h
  | stop f => intro h; cases h
  | run i =>
    change exec i s ≠ .refused r
    rw [exec_eq_retire]
    intro h
    cases h

/-- What `executablePc` says of the PC. -/
theorem executablePc_iff {pc : Word} :
    executablePc pc = true ↔ 0x1000 ≤ pc.toNat ∧ pc.toNat % 4 = 0 ∧ pc.toNat ≤ 0xFFFFFFF8 := by
  have hlt := pc.isLt
  have htop : pc = Config.topWord ↔ pc.toNat = 0xFFFFFFFC := by
    constructor
    · rintro rfl; rfl
    · intro h; exact BitVec.eq_of_toNat_eq h
  have hb : Config.reservedBoundary = 4096 := rfl
  simp only [executablePc, Bool.and_eq_true, decide_eq_true_eq, ne_eq, htop, hb]
  omega

end Sys2Proof.Machine
end

