-- ==== Sys2Proof/Laws/Run.lean ====
section
/-! SUPPORT. What `step()` of the host, a pass and a turn of the run-loop do, by the outcome of the machine's step; and that the
step looks only at the architectural state and `SltCompare`. -/

namespace Sys2Proof.Machine

theorem hostStep_fault {s : State} {f : Fault} (h : step s = .fault f) :
    hostStep s = ({ s with clean := false }, .fault f) := by
  simp [hostStep, h]

theorem hostStep_next {s t : State} (h : step s = .next t) :
    ∃ r, (r = .ok ∨ r = .noOp) ∧ hostStep s = ({ t with clean := false }, r) := by
  simp only [hostStep, h]
  split
  · exact ⟨_, .inr rfl, rfl⟩
  · exact ⟨_, .inl rfl, rfl⟩

/-! ## A pass, by the first thing that happens in it -/

/-- A request observed at once ends the pass, whatever its bound (log 15). -/
theorem execPass_stop (n : Nat) (s : State) : execPass n (some 0) s = (s, .stopSeen) := by
  cases n <;> rfl

/-- A pass with no step left and no request due ends by its bound. -/
theorem execPass_bound {k : Option Nat} (hk : k ≠ some 0) (s : State) : execPass 0 k s = (s, .bound) := by
  rcases k with _ | _ | k
  · rfl
  · exact absurd rfl hk
  · rfl

/-- A pass whose next step succeeds goes on from there. -/
theorem execPass_next {n : Nat} {k : Option Nat} {s t : State} (hk : k ≠ some 0) (h : step s = .next t) :
    execPass (n + 1) k s = execPass n (k.map Nat.pred) t := by
  rcases k with _ | _ | k
  · simp [execPass, h]
  · exact absurd rfl hk
  · simp [execPass, h]

/-- A pass whose next step stops ends with its fault. -/
theorem execPass_fault {n : Nat} {k : Option Nat} {s : State} {f : Fault} (hk : k ≠ some 0) (h : step s = .fault f) :
    execPass (n + 1) k s = (s, .fault f) := by
  rcases k with _ | _ | k
  · simp [execPass, h]
  · exact absurd rfl hk
  · simp [execPass, h]

/-! ## A turn of the run-loop -/

/-- A turn with no run-loop active. -/
theorem loopTurn_idle {s : State} (sees : Bool) (h : s.loop.running = false) : loopTurn sees s = (s, .ok) := by
  simp [loopTurn, h]

/-- A turn that observes a stop request. -/
theorem loopTurn_seen {s : State} {sees : Bool} (hr : s.loop.running = true) (hs : (sees && s.loop.stopRequest) = true) :
    loopTurn sees s = (s.endLoop, .ok) := by
  simp only [loopTurn, hr, hs]
  rfl

/-- A turn whose step stops. -/
theorem loopTurn_fault {s : State} {f : Fault} {sees : Bool} (h : step s = .fault f) (hr : s.loop.running = true)
    (hs : (sees && s.loop.stopRequest) = false) :
    loopTurn sees s = (State.endLoop { s with clean := false }, .fault f) := by
  simp only [loopTurn, hr, hs, hostStep_fault h]
  rfl

/-- A turn whose step succeeds. -/
theorem loopTurn_next {s t : State} {sees : Bool} (h : step s = .next t) (hr : s.loop.running = true)
    (hs : (sees && s.loop.stopRequest) = false) :
    ∃ r, (r = .ok ∨ r = .noOp) ∧ loopTurn sees s = ({ t with clean := false }, r) := by
  obtain ⟨r, hr', h'⟩ := hostStep_next h
  refine ⟨r, hr', ?_⟩
  simp only [loopTurn, hr, hs, h']
  rcases hr' with rfl | rfl <;> rfl

/-- A state that one step of a machine leaves as it is, any number of steps does. -/
theorem run_of_step_self (M : Host.Core) {s : M.State} (h : M.step s = .next s) (n : Nat) : M.run n s = .next s := by
  induction n with
  | zero => rfl
  | succ n ih => rw [Host.Core.run, h]; exact ih

/-- The result of an instruction depends on the registers and `SltCompare` alone. -/
theorem resultWord_congr {s s' : State} (h : s.regs = s'.regs) (h' : s.params.sltCompare = s'.params.sltCompare)
    (i : Instr) : resultWord i s = resultWord i s' := by
  cases i <;> simp [resultWord, State.srcA, State.srcB, State.reg, h, h']

/-- The checks, the fetch and the decoding depend on the architectural state alone. -/
theorem issue_congr {s s' : State} (h : s.arch = s'.arch) : issue s = issue s' := by
  obtain ⟨-, hp, hm, ho⟩ := (State.arch_eq_iff s s').mp h
  simp [issue, fetchWord, hp, hm, ho]

end Sys2Proof.Machine
end

