-- ==== Sys2Proof/Laws/Host.lean ====
section
/-! SUPPORT. What the host's operations leave unchanged, and when `assemble` and `reset` succeed. -/

namespace Sys2Proof.Machine

/-! ## Queries and reads change nothing -/

@[simp] theorem hostDo_isRunning (s : State) : (hostDo .isRunning s).1 = s := rfl
@[simp] theorem hostDo_canUseJit (s : State) : (hostDo .canUseJit s).1 = s := rfl
@[simp] theorem hostDo_readPc (s : State) : (hostDo .readPc s).1 = s := rfl
@[simp] theorem hostDo_readReg (r : Reg) (s : State) : (hostDo (.readReg r) s).1 = s := rfl
@[simp] theorem hostDo_readByte (a : Word) (s : State) : (hostDo (.readByte a) s).1 = s := rfl

@[simp] theorem hostDo_readMemory (page : Nat) (s : State) : (hostDo (.readMemory page) s).1 = s := by
  simp only [hostDo, hostReadMemory]
  split <;> rfl

@[simp] theorem hostDo_readU32 (a : Word) (s : State) : (hostDo (.readU32 a) s).1 = s := by
  simp only [hostDo, hostReadU32]
  split <;> rfl

@[simp] theorem hostDo_readIntoSlice (a : Word) (len : Nat) (s : State) : (hostDo (.readIntoSlice a len) s).1 = s := by
  simp only [hostDo, hostReadIntoSlice]
  split <;> rfl

/-! ## `run` and `stop` touch the run-loop only -/

@[simp] theorem hostDo_run_arch (j : Bool) (s : State) : (hostDo (.run j) s).1.arch = s.arch := by
  simp only [hostDo, hostRun]
  split <;> rfl

@[simp] theorem hostDo_run_params (j : Bool) (s : State) : (hostDo (.run j) s).1.params = s.params := by
  simp only [hostDo, hostRun]
  split <;> rfl

@[simp] theorem hostDo_run_clean (j : Bool) (s : State) : (hostDo (.run j) s).1.clean = s.clean := by
  simp only [hostDo, hostRun]
  split <;> rfl

@[simp] theorem hostDo_stop_arch (s : State) : (hostDo .stop s).1.arch = s.arch := rfl
@[simp] theorem hostDo_stop_params (s : State) : (hostDo .stop s).1.params = s.params := rfl
@[simp] theorem hostDo_stop_clean (s : State) : (hostDo .stop s).1.clean = s.clean := rfl

/-! ## `assemble` -/

/-- What a successful `assemble` did. -/
theorem assemble_ok {order : ByteOrder} {engine : Engine} {src : Text} {s t : State}
    (h : hostDo (.assemble order engine src) s = (t, .ok)) :
    ∃ gs m, assembleText order src = .ok gs ∧ loadMemory gs = .ok m ∧ engineLegal s.params order engine = true ∧
      t = State.create s.params order engine (some gs) m := by
  simp only [hostDo, hostAssemble] at h
  split at h
  · cases h
  · rename_i gs hg
    split at h
    · cases h
    · rename_i m hm
      split at h
      · rename_i he
        cases h
        exact ⟨gs, m, hg, hm, he, rfl⟩
      · cases h

/-- When `assemble` succeeds. -/
theorem assemble_of {order : ByteOrder} {engine : Engine} {src : Text} {s : State} {gs : List Segment} {m : Memory}
    (h1 : assembleText order src = .ok gs) (h2 : loadMemory gs = .ok m) (h3 : engineLegal s.params order engine = true) :
    hostDo (.assemble order engine src) s = (State.create s.params order engine (some gs) m, .ok) := by
  simp [hostDo, hostAssemble, h1, h2, h3]

/-! ## The host's `step()` and the run-loop's turn, whatever their outcome -/

/-- The state after the host's `step()`: the machine's next state, or the state itself, with the clean flag false. -/
theorem hostStep_fst (s : State) : ∃ u, (hostStep s).1 = { u with clean := false } ∧ (u = s ∨ step s = .next u) := by
  cases h : step s with
  | next u =>
    obtain ⟨r, -, h'⟩ := hostStep_next h
    exact ⟨u, by rw [h'], .inr rfl⟩
  | fault f => exact ⟨s, by rw [hostStep_fault h], .inl rfl⟩
  | refused r => exact absurd h (step_ne_refused _ _)

/-- The state after a turn. -/
theorem loopTurn_fst (sees : Bool) (s : State) :
    (loopTurn sees s).1 = s ∨ (loopTurn sees s).1 = s.endLoop ∨ (loopTurn sees s).1 = (hostStep s).1 ∨
      (loopTurn sees s).1 = (hostStep s).1.endLoop := by
  simp only [loopTurn]
  split
  · exact .inl rfl
  · split
    · exact .inr (.inl rfl)
    · split
      · rename_i h; rw [h]; exact .inr (.inr (.inr rfl))
      · rename_i h; rw [h]; exact .inr (.inr (.inr rfl))
      · rename_i h; rw [h]; exact .inr (.inr (.inl rfl))

end Sys2Proof.Machine
end

