-- ==== Sys2Proof/Laws/Operands.lean ====
section
/-! SUPPORT. What the reading of numbers and register names answers. -/

namespace Sys2Proof.Machine

/-- A character counts as a digit below ten exactly where it is a decimal digit, and its value is its place after `0`. -/
theorem digitValue_lt_ten {c : Char} {d : Nat} :
    (digitValue c = some d ∧ d < 10) ↔ (('0' ≤ c ∧ c ≤ '9') ∧ d = c.toNat - '0'.toNat) := by
  have le_iff : ∀ a b : Char, a ≤ b ↔ a.toNat ≤ b.toNat := fun _ _ => Iff.rfl
  have z : '0'.toNat = 48 := rfl
  have n : '9'.toNat = 57 := rfl
  simp only [le_iff, digitValue, z, n]
  constructor
  · rintro ⟨h, hd⟩
    split at h
    · simp only [Option.some.injEq] at h
      exact ⟨‹_›, h.symm⟩
    · split at h
      · simp only [Option.some.injEq] at h
        omega
      · split at h
        · simp only [Option.some.injEq] at h
          omega
        · cases h
  · rintro ⟨h, rfl⟩
    exact ⟨if_pos h, by omega⟩

/-- A decimal run of digits is read where every character is a decimal digit, and its value is that of the numeral. -/
theorem digitsFrom_ten (ds : Text) : ∀ acc n : Nat, digitsFrom 10 acc ds = some n ↔
    (∀ c ∈ ds, '0' ≤ c ∧ c ≤ '9') ∧ n = ds.foldl (fun acc c => 10 * acc + (c.toNat - '0'.toNat)) acc := by
  induction ds with
  | nil => simp [digitsFrom, eq_comm]
  | cons c cs ih =>
    intro acc n
    simp only [digitsFrom, List.forall_mem_cons, List.foldl_cons]
    by_cases hc : '0' ≤ c ∧ c ≤ '9'
    · obtain ⟨hv, hlt⟩ := digitValue_lt_ten.mpr ⟨hc, rfl⟩
      simp only [hv, hlt, if_true, ih, hc, true_and, and_self, Nat.mul_comm acc 10]
    · have hno : ∀ d, digitValue c = some d → ¬d < 10 := fun d hd hlt => hc (digitValue_lt_ten.mp ⟨hd, hlt⟩).1
      simp only [hc, false_and, iff_false]
      split
      · rw [if_neg (hno _ ‹_›)]
        simp
      · simp

/-- The numeric form of a register is a dollar sign and a decimal numeral below 32. -/
theorem parseNumericRegister_eq_some {t : Text} {r : Reg} : parseNumericRegister t = some r ↔
    ∃ ds : Text, t = '$' :: ds ∧ ds ≠ [] ∧ digitsFrom 10 0 ds = some r.val := by
  unfold parseNumericRegister
  split
  · rename_i ds
    simp only [List.cons.injEq, true_and, exists_eq_left', parseDigits, List.isEmpty_iff]
    by_cases hd : ds = []
    · simp [hd]
    · simp only [hd, if_false, ne_eq, not_false_eq_true, true_and, Option.bind_eq_some_iff, registerOfNumber]
      constructor
      · rintro ⟨n, hn, h⟩
        split at h
        · cases h
          exact hn
        · cases h
      · intro h
        exact ⟨r.val, h, dif_pos r.isLt⟩
  · rename_i h
    constructor
    · intro h'; cases h'
    · rintro ⟨ds, rfl, -⟩
      exact absurd rfl (h ds)

end Sys2Proof.Machine
end

