-- ==== Sys2Proof/Laws/PerInstr.lean ====
section
/-! SUPPORT. Statements about an instruction as syntax, one lemma per constructor. -/

namespace Sys2Proof.Laws.Rebuild

/-- An instruction is its mnemonic with its operand record, and its word has opcode 0 and the mnemonic's funct code. -/
def Statement (i : Instr) : Prop :=
  i.mnemonic.build i.ops = i ∧ opcodeField (encode i) = 0#6 ∧ functField (encode i) = i.mnemonic.funct

theorem and (o : ROps) : Statement (.and o) := ⟨rfl, by simp [encode], by simp [encode]⟩
theorem or (o : ROps) : Statement (.or o) := ⟨rfl, by simp [encode], by simp [encode]⟩
theorem add (o : ROps) : Statement (.add o) := ⟨rfl, by simp [encode], by simp [encode]⟩
theorem sub (o : ROps) : Statement (.sub o) := ⟨rfl, by simp [encode], by simp [encode]⟩
theorem slt (o : ROps) : Statement (.slt o) := ⟨rfl, by simp [encode], by simp [encode]⟩

end Sys2Proof.Laws.Rebuild
end

