-- ==== Sys2Proof/Tests/Slice0.lean ====
section
/-! SUPPORT. Small tests; every expected value is one of spec/95_test_vectors.md or of the rule named. Then one witness for
the hypotheses of each statement that has some. -/

namespace Sys2Proof.Tests

open Sys2Proof.Machine

/-! ## Helpers -/

/-- The reset state with the PC at `pc`, `x9` and `x10` set, and the word `w` at the PC in the byte order `order`. -/
def at_ (order : ByteOrder) (pc x9 x10 w : Word) : State :=
  let s := (State.reset.setReg 9 x9).setReg 10 x10
  { s with pc := pc, byteOrder := order, mem := Memory.writeWord [] order pc.toNat w }

/-- The word of `add $t0,$t1,$t2`. -/
def I : Word := 0x012A4020#32

/-- The outcome is a next state with this property. -/
def nextIs (o : Host.Outcome State Fault Refusal) (p : State → Bool) : Bool :=
  match o with
  | .next t => p t
  | _ => false

/-- The outcome is this fault. -/
def faultIs (o : Host.Outcome State Fault Refusal) (f : Fault) : Bool :=
  match o with
  | .fault g => decide (g = f)
  | _ => false

/-- The text assembles to these segments. -/
def assemblesTo (order : ByteOrder) (src : Text) (gs : List Segment) : Bool :=
  match assembleText order src with
  | .ok hs => decide (hs = gs)
  | .error _ => false

/-- The text is rejected with this error. -/
def failsWith (src : Text) (e : AsmError) : Bool :=
  match assembleText .little src with
  | .ok _ => false
  | .error e' => decide (e' = e)

/-- `slt` compares unsigned in this state. -/
def unsigned (s : State) : State := { s with params := { s.params with sltCompare := .unsigned } }

/-! ## The checks refuse an ill-formed term each -/

theorem test_operands_refuse_rd_32 : operandsWf 32 0 0 0 = false ∧ ROps.ofNats? 32 0 0 0 = none := by decide
theorem test_operands_refuse_rs_32 : operandsWf 0 32 0 0 = false ∧ ROps.ofNats? 0 32 0 0 = none := by decide
theorem test_operands_refuse_rt_32 : operandsWf 0 0 32 0 = false ∧ ROps.ofNats? 0 0 32 0 = none := by decide
theorem test_operands_refuse_shamt_32 : operandsWf 0 0 0 32 = false ∧ ROps.ofNats? 0 0 0 32 = none := by decide
theorem test_operands_accept_31 : operandsWf 31 31 31 31 = true := by decide
theorem test_params_refuse_bound_0 : Params.wf { Params.default with execBound := 0 } = false := by decide
theorem test_segment_base_refused :
    Segment.baseOk ⟨.text, 0x003FFFFC#32, []⟩ = false ∧ Segment.baseOk ⟨.data, 0x80000000#32, []⟩ = false := by decide
theorem test_segment_past_top_refused : Segment.fits ⟨.data, 0xFFFFFFFF#32, [1#8, 2#8]⟩ = false := by decide
theorem test_overlap_refused :
    programWf [⟨.text, 0x00400000#32, [1#8, 0#8]⟩, ⟨.text, 0x00400001#32, [2#8]⟩] = false := by decide
theorem test_memory_form_refuses_a_zero_entry_and_disorder :
    Memory.wf [(5, 0#8)] = false ∧ Memory.wf [(5, 1#8), (4, 1#8)] = false ∧ Memory.wf [(0x100000000, 1#8)] = false := by
  decide

/-! ## Decoding: each constructor's word written out from R60 and R62 (V1) -/

theorem test_decode_and :
    decode (0b000000#6 ++ 0b01001#5 ++ 0b01010#5 ++ 0b01000#5 ++ 0b00000#5 ++ 0b100100#6) = some (.and ⟨8, 9, 10, 0⟩) := by
  decide
theorem test_decode_or :
    decode (0b000000#6 ++ 0b01001#5 ++ 0b01010#5 ++ 0b01000#5 ++ 0b00000#5 ++ 0b100101#6) = some (.or ⟨8, 9, 10, 0⟩) := by
  decide
theorem test_decode_add :
    decode (0b000000#6 ++ 0b01001#5 ++ 0b01010#5 ++ 0b01000#5 ++ 0b11111#5 ++ 0b100000#6) = some (.add ⟨8, 9, 10, 31⟩) := by
  decide
theorem test_decode_sub :
    decode (0b000000#6 ++ 0b10000#5 ++ 0b00000#5 ++ 0b00010#5 ++ 0b00000#5 ++ 0b100010#6) = some (.sub ⟨2, 16, 0, 0⟩) := by
  decide
theorem test_decode_slt :
    decode (0b000000#6 ++ 0b11111#5 ++ 0b11111#5 ++ 0b11111#5 ++ 0b11111#5 ++ 0b101010#6) = some (.slt ⟨31, 31, 31, 31⟩) := by
  decide
theorem test_encode_w1_w2 :
    encode (.add ⟨0, 4, 12, 0⟩) = 0x008C0020#32 ∧ encode (.sub ⟨2, 16, 0, 0⟩) = 0x02001022#32 := by decide
theorem test_decode_rejects_by_name :
    decodeWord 0x04000020#32 = .error (.opcode 1#6) ∧ decodeWord 0x0000002B#32 = .error (.funct 0x2B#6) ∧
    decodeBytes .little [0x20#8, 0x40#8, 0x2a#8] = .error .truncated := ⟨rfl, rfl, rfl⟩
theorem test_decode_table_word : decodeTableWord 32 0x012A4025 = some (.or ⟨8, 9, 10, 0⟩) := by decide
theorem test_fetch_word_runs :
    nextIs (step (State.reset.withFetchWord 32 0x012A4025)) (fun t => t.pc == 0x00400004#32) = true := by decide

/-! ## The instructions (V2) -/

theorem test_and :
    nextIs (exec (.and ⟨8, 9, 10, 0⟩) (at_ .little 0x1000 0x12345678 0x0F0F0F0F I)) (fun t => t.reg 8 == 0x02040608#32)
      = true := by decide
theorem test_or :
    nextIs (exec (.or ⟨8, 9, 10, 0⟩) (at_ .little 0x1000 0x12345678 0x0F0F0F0F I)) (fun t => t.reg 8 == 0x1F3F5F7F#32)
      = true := by decide
theorem test_add_wraps_signed :
    nextIs (exec (.add ⟨8, 9, 10, 0⟩) (at_ .little 0x1000 0x7FFFFFFF 1 I)) (fun t => t.reg 8 == 0x80000000#32) = true := by
  decide
theorem test_add_wraps_unsigned :
    nextIs (exec (.add ⟨8, 9, 10, 0⟩) (at_ .little 0x1000 0xFFFFFFFF 1 I)) (fun t => t.reg 8 == 0#32) = true := by decide
theorem test_sub_order_and_borrow :
    nextIs (exec (.sub ⟨8, 9, 10, 0⟩) (at_ .little 0x1000 5 7 I)) (fun t => t.reg 8 == 0xFFFFFFFE#32) = true := by decide
theorem test_sub_signed_overflow :
    nextIs (exec (.sub ⟨8, 9, 10, 0⟩) (at_ .little 0x1000 0x80000000 1 I)) (fun t => t.reg 8 == 0x7FFFFFFF#32) = true := by
  decide
theorem test_slt_signed :
    nextIs (exec (.slt ⟨8, 9, 10, 0⟩) (at_ .little 0x1000 0xFFFFFFFF 1 I)) (fun t => t.reg 8 == 1#32) = true := by decide
theorem test_slt_unsigned :
    nextIs (exec (.slt ⟨8, 9, 10, 0⟩) (unsigned (at_ .little 0x1000 0xFFFFFFFF 1 I))) (fun t => t.reg 8 == 0#32)
      = true := by decide

/-! ## The step (V3) -/

theorem test_st1_reserved_region :
    nextIs (step (at_ .little 0x0FFC 1 2 I)) (fun t => decide (t = at_ .little 0x0FFC 1 2 I)) = true := by decide
theorem test_st4_zero_word : faultIs (step (at_ .little 0x1000 0 0 0)) (.decodeFailure 0x1000 0) = true := by decide
theorem test_st5_lowest_pc :
    nextIs (step (at_ .little 0x1000 1 2 I)) (fun t => t.pc == 0x1004#32 && t.reg 8 == 3#32) = true := by decide
theorem test_st6_misaligned : faultIs (step (at_ .little 0x00400002 1 2 I)) (.misalignedFetch 0x00400002) = true := by decide
theorem test_st7_overflow : faultIs (step (at_ .little 0xFFFFFFFC 1 2 I)) (.pcOverflow 0xFFFFFFFC) = true := by decide
theorem test_st8_decode_before_overflow :
    faultIs (step (at_ .little 0xFFFFFFFC 1 2 0)) (.decodeFailure 0xFFFFFFFC 0) = true := by decide
theorem test_st9_highest_pc :
    nextIs (step (at_ .little 0xFFFFFFF8 1 2 I)) (fun t => t.pc == 0xFFFFFFFC#32 && t.reg 8 == 3#32) = true := by decide
theorem test_st10_read_before_write :
    nextIs (step (at_ .little 0x00400000 3 0 0x01294820)) (fun t => t.reg 9 == 6#32) = true := by decide
theorem test_st12_wrong_byte_order :
    faultIs (step { at_ .little 0x00400000 1 2 I with byteOrder := .big }) (.decodeFailure 0x00400000 0x20402A01) = true := by
  decide
theorem test_st14_register_zero :
    nextIs (step (at_ .big 0x00400000 1 2 0x012A0020)) (fun t => t.reg 0 == 3#32) = true := by decide

/-! ## The assembler (W3 to W7, V4) -/

theorem test_w3_comments_only :
    assemblesTo .little "   \n# only a comment\n\t# x\n".toList [] = true := by decide
theorem test_w4_words :
    assemblesTo .big ".data\n.word 123, 0x123, 0o123\n.word 0xffffffff".toList
      [⟨.data, 0x10000000#32, [0#8, 0#8, 0#8, 0x7b#8, 0#8, 0#8, 1#8, 0x23#8, 0#8, 0#8, 0#8, 0x53#8, 255#8, 255#8, 255#8,
        255#8]⟩] = true := by decide
theorem test_w5_four_empty_segments :
    assemblesTo .little ".text\n.data\n.text\n.data".toList
      [⟨.text, 0x00400000#32, []⟩, ⟨.data, 0x10000000#32, []⟩, ⟨.text, 0x00400000#32, []⟩, ⟨.data, 0x10000000#32, []⟩]
      = true := by decide
theorem test_w6_base_out_of_range : failsWith ".text 0x003FFFFC".toList .baseAddressOutOfRange = true := by decide
theorem test_w6_bounds_accepted : assemblesTo .little ".data 0x7FFFFFFF".toList [⟨.data, 0x7FFFFFFF#32, []⟩] = true := by decide
theorem test_w7_segment_required : failsWith "add $t0, $t1, $t2".toList .segmentRequired = true := by decide
theorem test_as4_trailing_token : failsWith ".text 0x00400000 0x00400004".toList .trailingToken = true := by decide
theorem test_as6_segment_before_number : failsWith ".word xyz".toList .segmentRequired = true := by decide
theorem test_as8_over_32_bits : failsWith ".text\n.word 0x100000000".toList .invalidToken = true := by decide
theorem test_as13_upper_case_prefix : failsWith ".text\n.word 0XFF".toList .invalidToken = true := by decide
theorem test_as14_upper_case_mnemonic : failsWith ".text\nADD $t0, $t1, $t2".toList .unknownInstruction = true := by decide
theorem test_as18_few_operands : failsWith ".text\nadd $t0, $t1".toList .invalidNumberOfOperands = true := by decide
theorem test_as19_many_operands : failsWith ".text\nadd $t0, $t1, $t2, $t3".toList .trailingToken = true := by decide
theorem test_as20_empty_operand : failsWith ".text\nadd $t0, $t1,".toList .invalidRegisterName = true := by decide
theorem test_as21_v1_is_no_name : failsWith ".text\nadd $t0, $t1, $v1".toList .invalidRegisterName = true := by decide
theorem test_as25_numeric_and_s8 :
    assemblesTo .little ".text\nadd $31, $0, $s8".toList [⟨.text, 0x00400000#32, [0x20#8, 0xf8#8, 0x1e#8, 0x00#8]⟩]
      = true := by decide
theorem test_as27_register_before_segment : failsWith "add $t0, $t1, $v1".toList .invalidRegisterName = true := by decide
theorem test_as28_globl_without_label : failsWith ".text\n.globl".toList .invalidNumberOfOperands = true := by decide
theorem test_as32_mark_is_a_maximum :
    assemblesTo .little ".text 0x00400100\n.word 1\n.text 0x00400000\n.word 2\n.text\n.word 3".toList
      [⟨.text, 0x00400100#32, [1#8, 0#8, 0#8, 0#8]⟩, ⟨.text, 0x00400000#32, [2#8, 0#8, 0#8, 0#8]⟩,
        ⟨.text, 0x00400104#32, [3#8, 0#8, 0#8, 0#8]⟩] = true := by decide
theorem test_as33_first_error_wins :
    failsWith ".text\nadd $t0,$t1,$t2\nbogus\n.text 0x1".toList .unknownInstruction = true := by decide
theorem test_as1_long_line : asmLine .little (List.replicate 8193 'c') AsmState.start = .error .lineTooLong := by
  unfold asmLine
  rw [if_pos (by rw [List.length_replicate]; decide)]
theorem test_register_names :
    parseRegister "$zero".toList = some 0 ∧ parseRegister "$s0".toList = some 16 ∧ parseRegister "$ra".toList = some 31 ∧
    parseRegister "$3".toList = some 3 ∧ parseRegister "$32".toList = none ∧ parseRegister "$fp".toList = none := by decide

/-! ## Host operations (V5) -/

theorem test_ho1_edit_register :
    (hostDo (.editRegister "$t1".toList 5#32) State.reset).1.reg 9 = 5#32 ∧
    (hostDo (.editRegister "$t1".toList 5#32) State.reset).1.clean = false := by decide
theorem test_ho3_edit_pc : (hostDo (.editRegister "pc".toList 0x00400100#32) State.reset).1.pc = 0x00400100#32 := by decide
theorem test_ho4_unknown_register :
    hostDo (.editRegister "$v1".toList 1#32) State.reset = (State.reset, .rejected .unknownRegister) := by decide
theorem test_ho6_noop_clears_clean :
    (hostDo .step State.reset).2 = .noOp ∧ (hostDo .step State.reset).1.clean = false := by decide
theorem test_as36_overlap_refused :
    (hostDo (.assemble .little .interpreter ".text\n.word 1\n.text 0x00400000\n.word 2".toList) State.reset).2
      = .rejected (.load .overlap) := by decide
theorem test_jit_needs_native_order :
    (hostDo (.assemble .big .jit ".text".toList) State.reset).2 = .rejected .jitOrder ∧
    (hostDo (.assemble .little .jit ".text".toList) State.reset).2 = .ok := by decide

/-! ## The choice of log 31 -/

/-- An active run-loop outlives an error of the host's own `step()` (log 31); its own next turn ends it. -/
theorem test_foreground_error_leaves_the_loop :
    let s := { at_ .little 0x1000 0 0 0 with loop := { running := true, stopRequest := false, engine := .interpreter } }
    (hostDo .step s).2 = .fault (.decodeFailure 0x1000 0) ∧ (hostDo .step s).1.loop.running = true ∧
    (loopTurn false (hostDo .step s).1).1.loop.running = false := ⟨rfl, rfl, rfl⟩

/-! ## Witnesses: states and operands that meet every hypothesis of a statement together -/

/-- A state whose run-loop is active. -/
def looping (s : State) : State := { s with loop := { running := true, stopRequest := false, engine := .interpreter } }

/-- A state whose run-loop is active and asked to stop. -/
def stopping (s : State) : State := { s with loop := { running := true, stopRequest := true, engine := .interpreter } }

/-- The source of the witnesses below. -/
def src1 : Text := ".text\nadd $t0, $t1, $t2".toList

theorem witness_DecodeBytesConsumesOneWord : ([0x20#8, 0x40#8] : List Byte).length < 4 := by decide
theorem witness_OpcodeTableRowsDecode : decode 0x012A402A#32 = some (Mnemonic.slt.build ⟨8, 9, 10, 0⟩) := by decide
theorem witness_SignedReadingOfAddAndSub :
    let s := at_ .little 0x1000 0x80000000 0x80000000 I
    (∃ t, exec (.add ⟨8, 9, 10, 0⟩) s = .next t) ∧ ∃ u, exec (.sub ⟨8, 9, 10, 0⟩) s = .next u :=
  ⟨⟨_, rfl⟩, ⟨_, rfl⟩⟩
theorem witness_SltReadingsAgreeOnEqualSigns :
    let s := at_ .little 0x1000 0xFFFFFFFF 1 I
    s.params.sltCompare = .signed ∧ (∃ t, exec (.slt ⟨8, 9, 10, 0⟩) s = .next t) ∧
      ∃ v, exec (.slt ⟨8, 9, 10, 0⟩) (unsigned s) = .next v :=
  ⟨rfl, ⟨_, rfl⟩, ⟨_, rfl⟩⟩
theorem witness_SltCompletes_unsigned : (unsigned State.reset).params.sltCompare = .unsigned := rfl
theorem witness_RegisterZeroIsOrdinary :
    (∃ u, exec (.add ⟨8, 0, 0, 0⟩) (hostDo (.writeReg 0 7#32) State.reset).1 = .next u) ∧ (Instr.add ⟨8, 0, 0, 0⟩).ops.rd ≠ 0 :=
  ⟨⟨_, rfl⟩, by decide⟩
theorem witness_RegisterZeroKeepsResults :
    (ROps.mk 0 9 10 0).rd = 0 ∧ (ROps.mk 8 0 9 0).rs = 0 ∧ (ROps.mk 8 9 0 0).rt = 0 ∧ State.reset.reg 0 = 0#32 := by decide
theorem witness_ReservedRegionDoesNothing : (at_ .little 0x0FFF 0 0 I).pc.toNat < 0x1000 := by decide
theorem witness_MisalignedPcFaults :
    0x1000 ≤ (at_ .little 0x1001 0 0 I).pc.toNat ∧ (at_ .little 0x1001 0 0 I).pc.toNat % 4 ≠ 0 := by decide
theorem witness_DecodeFailureCause :
    let s := at_ .little 0x1000 0 0 0
    0x1000 ≤ s.pc.toNat ∧ s.pc.toNat % 4 = 0 ∧ ∀ i : Nat, i < 4 → Memory.read s.mem (s.pc.toNat + i) = 0#8 :=
  ⟨by decide, by decide, fun _ _ => rfl⟩
theorem witness_TopOfAddressSpaceFaults_decodes :
    (at_ .little 0xFFFFFFFC 1 2 I).pc = 0xFFFFFFFC#32 ∧ (decode (fetchWord (at_ .little 0xFFFFFFFC 1 2 I))).isSome = true := by
  decide
theorem witness_TopOfAddressSpaceFaults_illegal :
    (at_ .little 0xFFFFFFFC 1 2 0).pc = 0xFFFFFFFC#32 ∧ decode (fetchWord (at_ .little 0xFFFFFFFC 1 2 0)) = none := by decide
theorem witness_DecodedInstructionAdvances_lowest :
    let s := at_ .big 0x1000 1 2 I
    0x1000 ≤ s.pc.toNat ∧ s.pc.toNat ≤ 0xFFFFFFF8 ∧ s.pc.toNat % 4 = 0 ∧
      decode (fetchWord s) = some (Mnemonic.add.build ⟨8, 9, 10, 0⟩) := by decide
theorem witness_DecodedInstructionAdvances_highest :
    let s := at_ .little 0xFFFFFFF8 1 2 I
    0x1000 ≤ s.pc.toNat ∧ s.pc.toNat ≤ 0xFFFFFFF8 ∧ s.pc.toNat % 4 = 0 ∧
      decode (fetchWord s) = some (Mnemonic.add.build ⟨8, 9, 10, 0⟩) := by decide
theorem witness_StepRunsTheDecodedInstruction :
    let s := at_ .big 0x00400000 1 2 I
    0x1000 ≤ s.pc.toNat ∧ s.pc.toNat ≤ 0xFFFFFFF8 ∧ s.pc.toNat % 4 = 0 ∧
      decodeBytes s.byteOrder (s.mem.readBytes s.pc.toNat 4) = .ok (.add ⟨8, 9, 10, 0⟩, []) :=
  ⟨by decide, by decide, by decide, rfl⟩
theorem witness_FetchReadsCurrentMemory :
    (at_ .big 0x00400000 1 2 I).mem.wf = true ∧ executablePc (at_ .big 0x00400000 1 2 I).pc = true := by decide

theorem step_add_at (order : ByteOrder) : ∃ t, step (at_ order 0x00400000 1 2 I) = .next t := by
  cases order <;> exact ⟨_, rfl⟩

theorem witness_StepAdvancesPcByFour_executes : ∃ t, step (at_ .little 0x00400000 1 2 I) = .next t := step_add_at _
theorem witness_StepAdvancesPcByFour_reserved : ∃ t, step (at_ .little 0x0FFC 1 2 I) = .next t := ⟨_, rfl⟩
theorem witness_StepFrame : ∃ t, step (at_ .big 0x00400000 1 2 I) = .next t := step_add_at _
theorem witness_StepDependsOnArchitectureOnly :
    let s := at_ .little 0x00400000 1 2 I
    s.arch = (looping s).arch ∧ s.params.sltCompare = (looping s).params.sltCompare ∧ s ≠ looping s ∧
      ∃ t, step s = .next t :=
  ⟨rfl, rfl, by decide, step_add_at _⟩
theorem witness_StepKeepsInvariant :
    State.Inv (at_ .little 0x00400000 1 2 I) ∧ ∃ t, step (at_ .little 0x00400000 1 2 I) = .next t :=
  ⟨⟨by decide, by decide, by decide, by decide, (fun _ h => nomatch h), by decide⟩, step_add_at _⟩
theorem witness_EmptyMemoryReadsZero : State.reset.program = none ∧ loadMemory [] = .ok [] := ⟨rfl, rfl⟩
theorem witness_LoadedMemoryHoldsTheSegments :
    loadMemory [⟨.text, 0x00400000#32, [1#8]⟩, ⟨.data, 0xFFFFFFFF#32, [2#8]⟩] = .ok [(0x00400000, 1#8), (0xFFFFFFFF, 2#8)] :=
  rfl
theorem witness_HostWordWriteReadsBack :
    (at_ .big 0x00400000 1 2 I).mem.wf = true ∧ (0xFFFFFFFC#32).toNat + 4 ≤ 2 ^ 32 := by decide
theorem witness_HostByteWriteReadsBack :
    (at_ .big 0x00400000 1 2 I).mem.wf = true ∧ (0xFFFFFFFF#32 : Word) ≠ 0x00400000#32 := by decide
theorem witness_CanonicalMemoriesAreExtensional : ∃ m n : Memory,
    m.wf = true ∧ n.wf = true ∧ ∀ a : Nat, Memory.read m a = Memory.read n a :=
  ⟨[(4, 1#8)], Memory.write [(4, 1#8), (9, 2#8)] 9 0#8, by decide, by decide, fun _ => rfl⟩
theorem witness_HostReadsReturnStoredBytes :
    (0xFFFFF : Nat) < 2 ^ 20 ∧ (2 : Nat) ^ 20 ≤ 0x100000 ∧ (0xFFFFFFFC#32).toNat + 4 ≤ 2 ^ 32 ∧
      2 ^ 32 < (0xFFFFFFFD#32).toNat + 4 := by decide
theorem witness_ErrorsStopTheRunAndAreReported :
    let s := looping (at_ .little 0x1000 0 0 0)
    step s = .fault (.decodeFailure 0x1000 0) ∧ s.loop.running = true ∧ (true && s.loop.stopRequest) = false ∧
      (none : Option Nat) ≠ some 0 := ⟨rfl, rfl, rfl, by decide⟩
theorem witness_ErrorsWriteNoArchitecturalState :
    step (at_ .little 0x00400002 1 2 I) = .fault (.misalignedFetch 0x00400002) := rfl
theorem witness_ExecPassIsABoundedRun_fault : ∃ t, execPass 2 none (at_ .little 0x00400000 1 2 I)
    = (t, .fault (.decodeFailure 0x00400004 0)) := ⟨_, rfl⟩
theorem witness_ExecPassIsABoundedRun_stop : ∃ t, execPass 2 (some 1) (at_ .little 0x00400000 1 2 I) = (t, .stopSeen) :=
  ⟨_, rfl⟩
theorem witness_ExecPassIsABoundedRun_bound : ∃ t, execPass 1 none (at_ .little 0x00400000 1 2 I) = (t, .bound) := ⟨_, rfl⟩
theorem witness_ExecPassIsABoundedRun_tie : ∃ t, execPass 1 (some 1) (at_ .little 0x00400000 1 2 I) = (t, .stopSeen) :=
  ⟨_, rfl⟩
theorem witness_ExecPassIsABoundedRun_exec :
    let s := { at_ .little 0x00400000 1 2 I with params := { Params.default with execBound := 2 } }
    ∃ t, execPass s.params.execBound none s = (t, .fault (.decodeFailure 0x00400004 0)) := ⟨_, rfl⟩
theorem witness_ReservedRunNeverEnds :
    let s := looping (at_ .little 0x0FFC 0 0 I)
    s.pc.toNat < 0x1000 ∧ s.loop.running = true ∧ s.loop.stopRequest = false := by decide
theorem witness_StopLeavesAPrefixOfTheRun :
    let s := looping (at_ .little 0x00400000 1 2 I)
    (∃ t, Steps 1 s t) ∧ s.loop.running = true ∧ (stopping s).loop.running = true ∧ (stopping s).loop.stopRequest = true ∧
      State.reset.loop.running = false ∧
      ∀ e ∈ [Event.turn false, .host .stop, .turn false, .turn true], Claims.onlyTheLoopWrites e = true :=
  ⟨⟨_, .succ rfl (.zero _)⟩, rfl, rfl, rfl, rfl, by decide⟩
theorem witness_RunLoopLifecycle :
    let s := looping (at_ .little 0x00400000 1 2 I)
    let u := looping (at_ .little 0x00400000 1 2 0)
    s.loop.running = true ∧ (false && s.loop.stopRequest) = false ∧ (∃ t, step s = .next t) ∧ ∃ f, step u = .fault f :=
  ⟨rfl, rfl, ⟨_, rfl⟩, ⟨_, rfl⟩⟩
theorem witness_RunWhileRunningChangesNothing : (looping State.reset).loop.running = true := rfl
theorem witness_CleanFlagTracksMutation :
    (hostDo .reset State.reset).2 = .ok ∧ (hostDo (.assemble .big .interpreter src1) State.reset).2 = .ok ∧
    (hostDo (.editRegister "$ra".toList 1#32) State.reset).2 = .ok ∧ Claims.opIsQuiet .readPc = true := by decide
theorem witness_AssemblerErrorsTouchNothing : assembleText .little "nop".toList = .error .unknownInstruction := by rfl
theorem witness_AssemblerErrorsTouchNothing_line :
    sourceLines ".text\nbogus\n.text 0x1".toList = [".text".toList] ++ "bogus".toList :: [".text 0x1".toList] ∧
    (∃ a, asmLines .little [".text".toList] AsmState.start = .ok a ∧
      asmLine .little "bogus".toList a = .error .unknownInstruction) := ⟨by decide, _, rfl, rfl⟩
theorem witness_AssemblerErrorsTouchNothing_rejected :
    (hostDo (.assemble .big .jit src1) State.reset).2 ≠ .ok := by decide
theorem witness_AssembleMakesANewExecutor : ∃ t, hostDo (.assemble .big .interpreter src1) State.reset = (t, .ok) :=
  ⟨_, Prod.ext rfl (by decide)⟩
theorem witness_ResetRestoresTheAssembledState :
    (∃ t, hostDo (.assemble .little .jit src1) State.reset = (t, .ok)) ∧
    ∀ e ∈ [Event.host (.writeByte 0x00400000#32 7#8), .host (.run true), .turn false], Claims.noAssemble e = true :=
  ⟨⟨_, Prod.ext rfl (by decide)⟩, by decide⟩
theorem witness_EditRegisterWritesTheNamedRegister_names :
    Claims.NamesRegister "$zero".toList 0 ∧ Claims.NamesRegister "$t8".toList 24 ∧ Claims.NamesRegister "$ra".toList 31 := by
  simp [Claims.NamesRegister, Claims.namedRegisters]
theorem witness_EditRegisterWritesTheNamedRegister_numbers :
    Claims.NamesRegister "$0".toList 0 ∧ Claims.NamesRegister "$3".toList 3 ∧ Claims.NamesRegister "$31".toList 31 :=
  ⟨.inr ⟨['0'], by decide, by decide, by simp, by decide⟩, .inr ⟨['3'], by decide, by decide, by simp, by decide⟩,
    .inr ⟨['3', '1'], by decide, by decide, by simp, by decide⟩⟩
theorem witness_EditRegisterWritesTheNamedRegister_rejected :
    "$32".toList ≠ "pc".toList ∧ ∀ r : Reg, ¬Claims.NamesRegister "$32".toList r := by
  refine ⟨by decide, ?_⟩
  rintro r (h | ⟨ds, h, -, -, hn⟩)
  · simp [Claims.namedRegisters] at h
  · cases h
    exact absurd r.isLt (by rw [hn]; decide)
theorem witness_EventsKeepInvariant : State.Inv (looping (at_ .little 0x00400000 1 2 I)) :=
  ⟨by decide, by decide, by decide, by decide, (fun _ h => nomatch h), by decide⟩
theorem witness_ReservedPcStandsStill : State.reset.pc.toNat < 0x1000 ∧ (at_ .big 0x0FFF 1 2 I).pc.toNat < 0x1000 := by
  decide
theorem witness_BlankSourceYieldsNoSegments :
    ∀ l ∈ sourceLines " # c\n\n".toList, l.length ≤ 8192 ∧ stripLine l = [] := by decide
theorem witness_LongLineIsRejected :
    (∃ a, asmLines .little [".text".toList] AsmState.start = .ok a) ∧ 8192 < (List.replicate 8193 'c').length :=
  ⟨⟨_, rfl⟩, by rw [List.length_replicate]; decide⟩
theorem witness_AssembledBasesAreInRange : ∃ gs, assembleText .little ".data 0x7FFFFFFF\n.text".toList = .ok gs := ⟨_, rfl⟩
theorem witness_HighWaterMarkCoversEmittedBytes :
    ∃ a, asmLines .little [".text".toList, ".word 1".toList] AsmState.start = .ok a ∧ ∃ g ∈ a.segments, g.bytes ≠ [] :=
  ⟨_, rfl, _, List.mem_cons_self, by decide⟩

end Sys2Proof.Tests
end

section

namespace Sys2Proof.Machine

/-- An instruction leaves every register but its destination as it was (R99). -/
theorem reg_exec_other {i : Instr} {s t : State} {r : Reg} (h : exec i s = .next t) (hr : r ≠ i.ops.rd) :
    t.reg r = s.reg r := by
  rw [exec_eq_retire] at h
  cases h
  simp [State.reg_retire, hr]

/-- Settles O17: the state the host's write leaves is the witness, and an instruction with another destination keeps
register 0 by the frame of `exec`. -/
theorem registerZeroIsOrdinary : Obligations.RegisterZeroIsOrdinary := by
  intro s v
  have hread : (s.setReg 0 v).reg 0 = v := State.reg_setReg_same s 0 v
  refine ⟨s.setReg 0 v, rfl, ?_, fun i u hexec hrd => ?_⟩
  · simp only [hostDo, hread]
  · exact (reg_exec_other hexec hrd.symm).trans hread

end Sys2Proof.Machine

end

section

/-! ## What a memory built from segments reads (R37) -/

namespace Sys2Proof

/-- The address lies in the segment (R37). -/
def Segment.Covers (g : Segment) (a : Nat) : Prop := g.base.toNat ≤ a ∧ a < g.base.toNat + g.bytes.length

end Sys2Proof

namespace Sys2Proof.Machine

/-- No address lies in both of two segments that do not overlap (R38). -/
theorem not_covers_of_covers_of_disjoint {g h : Segment} {a : Nat} (hg : g.Covers a) (hgh : g.overlaps h = false) :
    ¬h.Covers a := by
  have hgap := (Segment.overlaps_eq_false_iff g h).mp hgh
  unfold Segment.Covers at *
  omega

/-- Inside the segment just loaded, memory reads the segment's bytes. -/
theorem read_loadSegment_index {m : Memory} {g : Segment} (hm : m.wf = true) (hg : g.fits = true) {i : Nat}
    (hi : i < g.bytes.length) : Memory.read (loadSegment m g) (g.base.toNat + i) = g.bytes[i] := by
  have hin : g.base.toNat ≤ g.base.toNat + i ∧ g.base.toNat + i < g.base.toNat + g.bytes.length := by omega
  rw [loadSegment, Memory.read_writeBytes hm ((Segment.fits_iff g).mp hg), if_pos hin, Nat.add_sub_cancel_left,
    List.getD_eq_getElem _ _ hi]

/-- Outside the segment just loaded, memory reads what it read before. -/
theorem read_loadSegment_outside {m : Memory} {g : Segment} (hm : m.wf = true) (hg : g.fits = true) {a : Nat}
    (ha : ¬g.Covers a) : Memory.read (loadSegment m g) a = Memory.read m a :=
  (Memory.read_writeBytes hm ((Segment.fits_iff g).mp hg) a).trans (if_neg ha)

/-- Outside every segment of the list, memory reads what it read before the list was loaded. -/
theorem read_foldl_loadSegment_outside {gs : List Segment} {a : Nat} :
    ∀ {m : Memory}, m.wf = true → gs.all Segment.fits = true → (∀ g ∈ gs, ¬g.Covers a) →
      Memory.read (gs.foldl loadSegment m) a = Memory.read m a := by
  induction gs with
  | nil => intro m _ _ _; rfl
  | cons g gs ih =>
    intro m hm hfits ha
    rw [List.all_cons, Bool.and_eq_true] at hfits
    obtain ⟨hg, hgs⟩ := hfits
    rw [List.forall_mem_cons] at ha
    calc Memory.read (gs.foldl loadSegment (loadSegment m g)) a
        = Memory.read (loadSegment m g) a := ih (wf_loadSegment hm hg) hgs ha.2
      _ = Memory.read m a := read_loadSegment_outside hm hg ha.1

/-- Each segment of a list that fits and is disjoint reads back: the segments loaded after it leave its bytes alone. -/
theorem read_foldl_loadSegment_index {gs : List Segment} {g : Segment} {i : Nat} (hi : i < g.bytes.length) :
    ∀ {m : Memory}, m.wf = true → gs.all Segment.fits = true → segmentsDisjoint gs = true → g ∈ gs →
      Memory.read (gs.foldl loadSegment m) (g.base.toNat + i) = g.bytes[i] := by
  induction gs with
  | nil => intro m _ _ _ hmem; cases hmem
  | cons h gs ih =>
    intro m hm hfits hdisj hmem
    rw [List.all_cons, Bool.and_eq_true] at hfits
    rw [segmentsDisjoint, Bool.and_eq_true] at hdisj
    obtain ⟨hh, hgs⟩ := hfits
    obtain ⟨hfirst, hrest⟩ := hdisj
    have hm' : (loadSegment m h).wf = true := wf_loadSegment hm hh
    rcases List.mem_cons.mp hmem with rfl | hmem
    · have hcov : g.Covers (g.base.toNat + i) := by unfold Segment.Covers; omega
      have hlater : ∀ k ∈ gs, ¬k.Covers (g.base.toNat + i) := fun k hk =>
        not_covers_of_covers_of_disjoint hcov (by simpa using List.all_eq_true.mp hfirst k hk)
      exact (read_foldl_loadSegment_outside hm' hgs hlater).trans (read_loadSegment_index hm hh hi)
    · exact ih hm' hgs hrest hmem

/-- Settles O33: by `loadMemory_ok_iff` the memory is the fold over a fitting, disjoint list from the empty memory, whose
every byte is 0. -/
theorem loadedMemoryHoldsTheSegments : Obligations.LoadedMemoryHoldsTheSegments := by
  intro gs m hload
  obtain ⟨hwf, rfl⟩ := loadMemory_ok_iff.mp hload
  rw [programWf, Bool.and_eq_true] at hwf
  obtain ⟨hfits, hdisj⟩ := hwf
  refine ⟨fun g hg i hi => ?_, fun a ha => read_foldl_loadSegment_outside rfl hfits ha⟩
  rw [read_foldl_loadSegment_index hi rfl hfits hdisj hg, List.getElem?_eq_getElem hi]

end Sys2Proof.Machine

end

section

/-! ## The encoded word's layout (R65) and its opcode and funct fields (R61) -/

namespace Sys2Proof

/-- The statements' funct codes are the model's table (R62). -/
theorem Mnemonic.funct_eq_functCode (m : Mnemonic) : m.funct = BitVec.ofNat 6 (Claims.functCode m) := by
  cases m <;> rfl

/-- Every funct code fits its 6-bit field (R60, R62). -/
theorem functCode_lt (m : Mnemonic) : Claims.functCode m < 2 ^ 6 := by cases m <;> decide

/-- No two mnemonics share a funct code (R61): the table read backwards recovers the mnemonic. -/
theorem Mnemonic.funct_injective : Function.Injective Mnemonic.funct := fun m n h =>
  Option.some.inj <| by rw [← mnemonicOfFunct_funct m, h, mnemonicOfFunct_funct]

/-- The encoded word side by side, with its fields given as numbers (R65). -/
theorem encodeFields_eq_append (m : Mnemonic) (o : ROps) :
    encodeFields m o =
      0#6 ++ BitVec.ofNat 5 o.rs.val ++ BitVec.ofNat 5 o.rt.val ++ BitVec.ofNat 5 o.rd.val ++ BitVec.ofNat 5 o.shamt.val
        ++ BitVec.ofNat 6 (Claims.functCode m) := by
  simp only [encodeFields, Mnemonic.funct_eq_functCode, ← BitVec.ofFin_eq_ofNat (w := 5) (lt := Fin.isLt _)]

/-- A 5-bit index widened to a word is the word of its value. -/
theorem setWidth_ofNat_index (r : Fin 32) : (BitVec.ofNat 5 r.val).setWidth 32 = BitVec.ofNat 32 r.val :=
  BitVec.setWidth_ofNat_of_le_of_lt (by decide) r.isLt

/-- The encoded word as the OR of its shifted fields (R65): appending a field shifts what stands above it by the field's
width, so each field ends up shifted by the widths of all the fields below it. -/
theorem encodeFields_eq_or (m : Mnemonic) (o : ROps) :
    encodeFields m o =
      (BitVec.ofNat 32 o.rs.val <<< 21) ||| (BitVec.ofNat 32 o.rt.val <<< 16) ||| (BitVec.ofNat 32 o.rd.val <<< 11)
        ||| (BitVec.ofNat 32 o.shamt.val <<< 6) ||| BitVec.ofNat 32 (Claims.functCode m) := by
  have hfunct : (BitVec.ofNat 6 (Claims.functCode m)).setWidth 32 = BitVec.ofNat 32 (Claims.functCode m) :=
    BitVec.setWidth_ofNat_of_le_of_lt (by decide) (functCode_lt m)
  rw [← BitVec.setWidth_eq (encodeFields m o), encodeFields_eq_append]
  simp only [BitVec.setWidth_append_eq_shiftLeft_setWidth_or, setWidth_ofNat_index, hfunct,
    BitVec.shiftLeft_or_distrib, ← BitVec.shiftLeft_add]
  simp

/-- Settles O2: the model's concatenation with numbers for its fields, and the OR it widens to. -/
theorem encodeLaysOutTheFields : Obligations.EncodeLaysOutTheFields := by
  intro m o
  rw [encode_build]
  exact ⟨encodeFields_eq_or m o, encodeFields_eq_append m o⟩

/-- Settles O3: the fields of an encoded word are opcode 0 and its mnemonic's funct code, which is the mnemonic's alone. -/
theorem opcodeZeroFunctDistinguishes : Obligations.OpcodeZeroFunctDistinguishes := by
  intro i j
  have hopcode : opcodeField (encode i) = 0#6 := opcodeField_encodeFields i.mnemonic i.ops
  have hfunct (k : Instr) : functField (encode k) = k.mnemonic.funct := functField_encodeFields k.mnemonic k.ops
  refine ⟨hopcode, ?_⟩
  calc functField (encode i) = functField (encode j)
      ↔ i.mnemonic.funct = j.mnemonic.funct := by rw [hfunct, hfunct]
    _ ↔ i.mnemonic = j.mnemonic := Mnemonic.funct_injective.eq_iff

end Sys2Proof

end

section

/-! ## The reserved region (R95) -/

namespace Sys2Proof.Machine

/-- The host's step in the reserved region answers `NoOp` and clears only the clean flag (R10, R134). -/
theorem hostStep_reserved {s : State} (h : s.pc.toNat < Config.reservedBoundary) :
    hostStep s = ({ s with clean := false }, .noOp) := by
  simp [hostStep, step_reserved h, issue_eq_reserved.mpr h]

/-- A pass from a state its step leaves as it is stays there; only its bound or a stop request can end it (R104). -/
theorem execPass_of_step_self {s : State} (h : step s = .next s) (n : Nat) (k : Option Nat) :
    ∃ e : PassEnd, execPass n k s = (s, e) ∧ (e = .bound ∨ e = .stopSeen) := by
  induction n generalizing k with
  | zero =>
    by_cases hk : k = some 0
    · subst hk
      exact ⟨.stopSeen, execPass_stop 0 s, .inr rfl⟩
    · exact ⟨.bound, execPass_bound hk s, .inl rfl⟩
  | succ n ih =>
    by_cases hk : k = some 0
    · subst hk
      exact ⟨.stopSeen, execPass_stop (n + 1) s, .inr rfl⟩
    · rw [execPass_next hk h]
      exact ih (k.map Nat.pred)

/-- Settles O19: the step stands still by `step_reserved`, so every pass does, and the host's step writes the clean flag
alone, which is not architectural. -/
theorem reservedRegionDoesNothing : Obligations.ReservedRegionDoesNothing := by
  intro s hpc
  have hstep : step s = .next s := step_reserved hpc
  have hhost : hostDo .step s = ({ s with clean := false }, .noOp) := hostStep_reserved hpc
  rw [hhost]
  exact ⟨hstep, execPass_of_step_self hstep, rfl, rfl⟩

end Sys2Proof.Machine

end

section

/-! ## Why a step is a decode failure (R67, R97, R119) -/

namespace Sys2Proof

/-- A funct code is in the table exactly where some mnemonic has it (R62). -/
theorem exists_funct_eq_iff {f : BitVec 6} :
    (∃ m : Mnemonic, m.funct = f) ↔ f ∈ [0x20#6, 0x22#6, 0x24#6, 0x25#6, 0x2a#6] := by
  constructor
  · rintro ⟨m, rfl⟩
    cases m <;> decide
  · simp only [List.mem_cons, List.not_mem_nil, or_false]
    rintro (rfl | rfl | rfl | rfl | rfl)
    exacts [⟨.add, rfl⟩, ⟨.sub, rfl⟩, ⟨.and, rfl⟩, ⟨.or, rfl⟩, ⟨.slt, rfl⟩]

/-- Some instruction is decoded exactly where the opcode is 0 and the funct code is a mnemonic's (R66). -/
theorem exists_decode_eq_some_iff {w : Word} :
    (∃ i, decode w = some i) ↔ opcodeField w = 0#6 ∧ ∃ m : Mnemonic, m.funct = functField w := by
  simp only [decode_eq_some, decodeWord_ok_iff]
  constructor
  · rintro ⟨i, hop, hfunct, -⟩
    exact ⟨hop, i.mnemonic, hfunct⟩
  · rintro ⟨hop, m, hfunct⟩
    exact ⟨m.build (operandFields w), hop, by simpa using hfunct, by simp⟩

/-- A word does not decode exactly where its opcode is not 0 or its funct code is outside the table (R67). -/
theorem decode_eq_none_iff {w : Word} :
    decode w = none ↔
      opcodeField w ≠ 0#6 ∨ functField w ∉ [0x20#6, 0x22#6, 0x24#6, 0x25#6, 0x2a#6] := by
  rw [← exists_funct_eq_iff, ← not_and_or, ← exists_decode_eq_some_iff, Option.eq_none_iff_forall_ne_some, not_exists]

/-- Four zero bytes make the zero word in either byte order. -/
theorem joinBytes_zero (order : ByteOrder) : joinBytes order 0#8 0#8 0#8 0#8 = 0#32 := by
  cases order <;> rfl

end Sys2Proof

namespace Sys2Proof.Machine

/-- A step faults exactly where its checks stop it: no instruction faults. -/
theorem step_eq_fault_iff {s : State} {f : Fault} : step s = .fault f ↔ issue s = .stop f := by
  unfold step
  cases issue s with
  | reserved => simp
  | stop g => simp
  | run i => simp [exec_eq_retire]

/-- The checks come to a decode failure exactly at an aligned PC outside the reserved region whose word does not decode;
the check of the last word address comes after it (R127). -/
theorem issue_eq_decodeFailure_iff {s : State} {pc w : Word} :
    issue s = .stop (.decodeFailure pc w) ↔
      pc = s.pc ∧ w = fetchWord s ∧ Config.reservedBoundary ≤ s.pc.toNat ∧ s.pc.toNat % 4 = 0 ∧ decode w = none := by
  unfold issue
  by_cases hres : s.pc.toNat < Config.reservedBoundary
  · simp [hres, Nat.not_le.mpr hres]
  by_cases halign : s.pc.toNat % 4 = 0
  · simp only [hres, halign, Nat.le_of_not_lt hres, ne_eq, not_true, if_false, true_and]
    cases hdec : decode (fetchWord s) with
    | none =>
      constructor
      · rintro ⟨⟩
        exact ⟨rfl, rfl, hdec⟩
      · rintro ⟨rfl, rfl, -⟩
        rfl
    | some i =>
      constructor
      · by_cases htop : s.pc = Config.topWord <;> simp [htop]
      · rintro ⟨-, rfl, hnone⟩
        exact absurd (hdec.symm.trans hnone) (Option.some_ne_none i)
  · simp [hres, halign]

/-- Settles O21: the step's faults are the stops of its checks, and what the checks call a decode failure is a word
`decode_eq_none_iff` describes; unwritten memory is fetched as the zero word, whose funct code 0 is outside the table. -/
theorem decodeFailureCause : Obligations.DecodeFailureCause := by
  have hcause (s : State) (pc w : Word) :=
    (step_eq_fault_iff (s := s)).trans <|
      (issue_eq_decodeFailure_iff (pc := pc) (w := w)).trans (by rw [decode_eq_none_iff])
  refine ⟨hcause, fun s hres halign hzero => (hcause s s.pc 0#32).mpr ⟨rfl, ?_, hres, halign, .inr (by decide)⟩⟩
  have h0 : Memory.read s.mem s.pc.toNat = 0#8 := hzero 0 (by decide)
  rw [fetchWord, Memory.readWord, h0, hzero 1 (by decide), hzero 2 (by decide), hzero 3 (by decide), joinBytes_zero]

end Sys2Proof.Machine

end

section

/-! ## Run-loop turns and stop requests against runs of steps (R130) -/

namespace Sys2Proof.Machine

/-- The states agree in all that a step looks at (R101): the architectural part and `SltCompare`. -/
structure State.SameRun (s u : State) : Prop where
  arch : s.arch = u.arch
  sltCompare : s.params.sltCompare = u.params.sltCompare

theorem State.SameRun.refl (s : State) : s.SameRun s := ⟨rfl, rfl⟩

theorem State.SameRun.trans {s t u : State} (h : s.SameRun t) (h' : t.SameRun u) : s.SameRun u :=
  ⟨h.arch.trans h'.arch, h.sltCompare.trans h'.sltCompare⟩

/-- Agreeing states step alike. -/
theorem State.SameRun.step {s u t : State} (h : s.SameRun u) (hstep : step s = .next t) :
    ∃ v, Machine.step u = .next v ∧ t.SameRun v := by
  obtain ⟨harch, hslt⟩ := h
  obtain ⟨hregs, hpc, hmem, horder⟩ := (State.arch_eq_iff s u).mp harch
  rcases step_eq_next hstep with ⟨hres, rfl⟩ | ⟨i, hexec, hdec, rfl⟩
  · exact ⟨u, step_reserved (hpc ▸ hres), harch, hslt⟩
  · have hfetch : fetchWord s = fetchWord u := by simp [fetchWord, hpc, hmem, horder]
    refine ⟨_, step_run (hpc ▸ hexec) (hfetch ▸ hdec), ?_, hslt⟩
    rw [resultWord_congr hregs hslt i]
    simp [State.arch, State.retire, State.setReg, State.setPc, hregs, hpc, hmem, horder]

/-- A step leaves the run-loop as it is (R99). -/
theorem step_loop {s t : State} (h : step s = .next t) : t.loop = s.loop := by
  rcases step_eq_next h with ⟨-, rfl⟩ | ⟨i, -, -, rfl⟩
  · rfl
  · exact State.retire_loop s _ _

/-- A quiet operation leaves all that a step looks at (R133). -/
theorem sameRun_hostDo_quiet {op : HostOp} (h : Claims.opIsQuiet op = true) (s : State) : (hostDo op s).1.SameRun s := by
  have hsame : (hostDo op s).1.arch = s.arch ∧ (hostDo op s).1.params = s.params := by
    cases op <;> simp [Claims.opIsQuiet] at h ⊢
  exact ⟨hsame.1, congrArg Params.sltCompare hsame.2⟩

/-- A turn of the run-loop, up to what a step looks at, is no step or one step (R129, R130). -/
theorem sameRun_loopTurn (sees : Bool) (s : State) :
    (loopTurn sees s).1.SameRun s ∨ ∃ t, step s = .next t ∧ (loopTurn sees s).1.SameRun t := by
  obtain ⟨u, hu, hstep⟩ := hostStep_fst s
  have hhost : (hostStep s).1.SameRun u := hu ▸ ⟨rfl, rfl⟩
  have hafter {v : State} (h : v.SameRun u) : v.SameRun s ∨ ∃ t, step s = .next t ∧ v.SameRun t := by
    rcases hstep with rfl | hnext
    · exact .inl h
    · exact .inr ⟨u, hnext, h⟩
  rcases loopTurn_fst sees s with h | h | h | h <;> rw [h]
  · exact .inl (.refl s)
  · exact .inl ⟨State.endLoop_arch s, rfl⟩
  · exact hafter hhost
  · exact hafter ⟨hhost.arch, hhost.sltCompare⟩

/-- An event in which only the loop writes, up to what a step looks at, is no step or one step. -/
theorem sameRun_applyEvent {e : Event} (he : Claims.onlyTheLoopWrites e = true) (s : State) :
    (applyEvent e s).1.SameRun s ∨ ∃ t, step s = .next t ∧ (applyEvent e s).1.SameRun t :=
  match e, he with
  | .host _, he => .inl (sameRun_hostDo_quiet he s)
  | .turn sees, _ => sameRun_loopTurn sees s

/-- Events in which only the loop writes simulate a run: from agreeing states, they lead to agreement with the state after
some number of steps. -/
theorem exists_steps_sameRun_runEvents {es : List Event} :
    ∀ {s u : State}, s.SameRun u → (∀ e ∈ es, Claims.onlyTheLoopWrites e = true) →
      ∃ k t, Steps k u t ∧ (runEvents es s).SameRun t := by
  induction es with
  | nil => intro s u h _; exact ⟨0, u, .zero u, h⟩
  | cons e es ih =>
    intro s u h hes
    rw [List.forall_mem_cons] at hes
    obtain ⟨he, hes⟩ := hes
    rcases sameRun_applyEvent he s with hsame | ⟨t, hstep, hsame⟩
    · exact ih (hsame.trans h) hes
    · obtain ⟨v, hv, htv⟩ := h.step hstep
      obtain ⟨k, t', hsteps, hend⟩ := ih (hsame.trans htv) hes
      exact ⟨k + 1, t', .succ hv hsteps, hend⟩

/-- A turn that observes the pending request ends the loop and writes no architectural state (R130). -/
theorem loopTurn_observes {s : State} (hrun : s.loop.running = true) (hreq : s.loop.stopRequest = true) :
    (loopTurn true s).1.arch = s.arch ∧ (loopTurn true s).1.loop.running = false := by
  rw [loopTurn_seen hrun (by rw [hreq]; rfl)]
  exact ⟨State.endLoop_arch s, State.endLoop_running s⟩

/-- The loop can stop after any number of successful steps: a turn for each, then the request and the turn that observes
it. -/
theorem exists_events_stop_after_steps {k : Nat} {s t : State} (hsteps : Steps k s t) :
    ∀ {u : State}, s.SameRun u → u.loop.running = true →
      ∃ es : List Event, (∀ e ∈ es, Claims.onlyTheLoopWrites e = true) ∧
        (runEvents es u).arch = t.arch ∧ (runEvents es u).loop.running = false := by
  induction hsteps with
  | zero s =>
    intro u hsu hrun
    obtain ⟨harch, hend⟩ := loopTurn_observes (s := (hostDo .stop u).1) hrun hrun
    exact ⟨[.host .stop, .turn true], by decide, harch.trans hsu.arch.symm, hend⟩
  | succ hstep _ ih =>
    intro u hsu hrun
    obtain ⟨v, hv, hsame⟩ := hsu.step hstep
    obtain ⟨r, -, hturn⟩ := loopTurn_next (sees := false) hv hrun rfl
    obtain ⟨es, hes, harch, hend⟩ := ih (u := { v with clean := false }) ⟨hsame.arch, hsame.sltCompare⟩
      ((step_loop hv).symm ▸ hrun)
    have hfirst : runEvents (.turn false :: es) u = runEvents es { v with clean := false } := by
      rw [runEvents, applyEvent, hturn]
    exact ⟨.turn false :: es, List.forall_mem_cons.mpr ⟨rfl, hes⟩, hfirst ▸ harch, hfirst ▸ hend⟩

/-- Turns with no run-loop active change nothing (R129). -/
theorem runEvents_turns_idle {s : State} (h : s.loop.running = false) (turns : List Bool) :
    runEvents (turns.map Event.turn) s = s := by
  induction turns with
  | nil => rfl
  | cons sees turns ih => rwa [List.map_cons, runEvents, applyEvent, loopTurn_idle sees h]

/-- Settles O42: the events' state keeps agreeing with a run of steps (`exists_steps_sameRun_runEvents`), and turns, a
request and an observing turn stop the loop at any step of that run. -/
theorem stopLeavesAPrefixOfTheRun : Obligations.StopLeavesAPrefixOfTheRun := by
  refine ⟨fun es s hes => ?_, fun k s t hsteps hrun => exists_events_stop_after_steps hsteps (.refl s) hrun,
    fun s => loopTurn_observes, fun s turns hrun => runEvents_turns_idle hrun turns⟩
  obtain ⟨k, t, hsteps, hsame⟩ := exists_steps_sameRun_runEvents (.refl s) hes
  exact ⟨k, t, hsteps, hsame.arch⟩

end Sys2Proof.Machine

end

section

/-! ## The codec is a bijection between the instructions and the words that decode (R65 to R68) -/

namespace Sys2Proof

/-- A word is its opcode field, the twenty operand bits and its funct field side by side (R60). -/
theorem word_eq_opcode_operands_funct (w : Word) :
    opcodeField w ++ w.extractLsb' 6 20 ++ functField w = w := by
  rw [opcodeField, functField, BitVec.extractLsb'_append_extractLsb'_eq_extractLsb' (show 26 = 6 + 20 from rfl),
    BitVec.extractLsb'_append_extractLsb'_eq_extractLsb' (show 6 = 0 + 6 from rfl)]
  exact BitVec.extractLsb'_eq_self

/-- A word is its six fields side by side (R60). -/
theorem word_eq_fields (w : Word) :
    opcodeField w ++ w.extractLsb' 21 5 ++ w.extractLsb' 16 5 ++ w.extractLsb' 11 5 ++ w.extractLsb' 6 5
      ++ functField w = w := by
  have hoperands : opcodeField w ++ w.extractLsb' 21 5 ++ w.extractLsb' 16 5 ++ w.extractLsb' 11 5 ++ w.extractLsb' 6 5
      = opcodeField w ++ w.extractLsb' 6 20 := by
    rw [opcodeField, BitVec.extractLsb'_append_extractLsb'_eq_extractLsb' (show 26 = 21 + 5 from rfl),
      BitVec.extractLsb'_append_extractLsb'_eq_extractLsb' (show 21 = 16 + 5 from rfl),
      BitVec.extractLsb'_append_extractLsb'_eq_extractLsb' (show 16 = 11 + 5 from rfl),
      BitVec.extractLsb'_append_extractLsb'_eq_extractLsb' (show 11 = 6 + 5 from rfl),
      BitVec.extractLsb'_append_extractLsb'_eq_extractLsb' (show 26 = 6 + 20 from rfl)]
  rw [hoperands, word_eq_opcode_operands_funct]

/-- The decoder undoes the encoder (R68). -/
@[simp] theorem decode_encode (i : Instr) : decode (encode i) = some i := by
  rw [decode_eq_some, decodeWord_ok_iff, encode]
  simp

/-- The encoder undoes the decoder where it answers (R68): the fields the decoder read are the whole word. -/
theorem encode_of_decode {w : Word} {i : Instr} (h : decode w = some i) : encode i = w := by
  obtain ⟨hop, hfunct, hops⟩ := decodeWord_ok_iff.mp (decode_eq_some.mp h)
  rw [encode, encodeFields, hfunct, hops, ← hop]
  exact word_eq_fields w

/-- Settles O4: the two round trips, the first of which makes `encode` injective. -/
theorem decodeAndEncodeAgree : Obligations.DecodeAndEncodeAgree :=
  ⟨decode_encode, fun _ _ => encode_of_decode,
    fun i j h => Option.some.inj <| by rw [← decode_encode i, h, decode_encode]⟩

/-- Decoding four bytes, whatever follows them, is decoding their word (R41, R59). -/
theorem decodeBytes_four (order : ByteOrder) (b0 b1 b2 b3 : Byte) (rest : List Byte) :
    decodeBytes order (b0 :: b1 :: b2 :: b3 :: rest) =
      (decodeWord (joinBytes order b0 b1 b2 b3)).map fun i => (i, rest) := by
  simp only [decodeBytes]
  cases decodeWord (joinBytes order b0 b1 b2 b3) <;> rfl

/-- Decoding the bytes of a word, whatever follows them, is decoding the word. -/
theorem decodeBytes_splitWord_append (order : ByteOrder) (w : Word) (rest : List Byte) :
    decodeBytes order (splitWord order w ++ rest) = (decodeWord w).map fun i => (i, rest) := by
  have hjoin := Machine.joinBytes_splitWord order w
  cases order with
  | little => exact (decodeBytes_four .little _ _ _ _ rest).trans (congrArg (fun v => (decodeWord v).map _) hjoin)
  | big => exact (decodeBytes_four .big _ _ _ _ rest).trans (congrArg (fun v => (decodeWord v).map _) hjoin)

/-- Fewer than four bytes hold no instruction (R59). -/
theorem decodeBytes_of_length_lt_four (order : ByteOrder) {bs : List Byte} (h : bs.length < 4) :
    decodeBytes order bs = .error .truncated := by
  match bs, h with
  | [], _ | [_], _ | [_, _], _ | [_, _, _], _ => rfl
  | _ :: _ :: _ :: _ :: _, h => exact absurd h (by simp)

/-- Settles O5: an instruction's bytes are those of its word, and its word decodes to it. -/
theorem decodeBytesConsumesOneWord : Obligations.DecodeBytesConsumesOneWord := by
  intro order i rest
  have hword : decodeWord (encode i) = .ok i := decode_eq_some.mp (decode_encode i)
  refine ⟨Machine.length_splitWord order _, ?_, fun bs => decodeBytes_of_length_lt_four order⟩
  rw [encodeBytes, decodeBytes_splitWord_append, hword]
  rfl

/-! ## The fields as numbers -/

theorem opcodeField_eq_zero_iff {w : Word} : opcodeField w = 0#6 ↔ w.toNat / 2 ^ 26 = 0 := by
  have hlt : w.toNat < 2 ^ 32 := w.isLt
  rw [← BitVec.toNat_inj, opcodeField, BitVec.extractLsb'_toNat, Nat.shiftRight_eq_div_pow]
  simp only [BitVec.toNat_ofNat]
  omega

theorem functField_eq_iff {w : Word} {f : BitVec 6} : functField w = f ↔ w.toNat % 64 = f.toNat := by
  rw [← BitVec.toNat_inj, functField, BitVec.extractLsb'_toNat]
  rfl

theorem indexField_val (lo : Nat) (w : Word) : (indexField lo w).val = w.toNat / 2 ^ lo % 32 := by
  rw [indexField, BitVec.val_toFin, BitVec.extractLsb'_toNat, Nat.shiftRight_eq_div_pow]

/-- Settles O6: the two causes of `decode_eq_none_iff`, with the fields read as numbers. -/
theorem decodeRefusesExactlyTheOthers : Obligations.DecodeRefusesExactlyTheOthers := by
  intro w
  rw [decode_eq_none_iff, ne_eq, opcodeField_eq_zero_iff]
  simp [functField_eq_iff]

/-! ## The rows of the opcode table (R71) -/

/-- The mask keeps the opcode field and the funct field. -/
theorem and_rowMask (w : Word) : w &&& 0xFC00003F#32 = opcodeField w ++ 0#20 ++ functField w := by
  have hmask : 0xFC00003F#32 = BitVec.allOnes 6 ++ 0#20 ++ BitVec.allOnes 6 := by decide
  calc w &&& 0xFC00003F#32
      = (opcodeField w ++ w.extractLsb' 6 20 ++ functField w) &&& (BitVec.allOnes 6 ++ 0#20 ++ BitVec.allOnes 6) := by
        rw [word_eq_opcode_operands_funct, hmask]
    _ = opcodeField w ++ 0#20 ++ functField w := by
        simp only [BitVec.and_append, BitVec.and_allOnes, BitVec.and_zero]

/-- A row's match is opcode 0 and the row's funct code. -/
theorem rowMatch_eq_append (m : Mnemonic) : Claims.rowMatch m = 0#6 ++ 0#20 ++ m.funct := by cases m <;> decide

/-- A masked word equals a row's match exactly where its opcode is 0 and its funct code is the row's. -/
theorem and_rowMask_eq_rowMatch_iff {m : Mnemonic} {w : Word} :
    w &&& 0xFC00003F#32 = Claims.rowMatch m ↔ opcodeField w = 0#6 ∧ functField w = m.funct := by
  rw [and_rowMask, rowMatch_eq_append]
  constructor
  · intro h
    have hhigh : opcodeField w ++ 0#20 = 0#6 ++ 0#20 := by
      simpa only [BitVec.extractLsb'_append_eq_left] using congrArg (BitVec.extractLsb' 6 26) h
    have hlow : functField w = m.funct := by
      simpa only [BitVec.extractLsb'_append_eq_right] using congrArg (BitVec.extractLsb' 0 6) h
    exact ⟨(BitVec.append_left_inj _).mp hhigh, hlow⟩
  · rintro ⟨hop, hfunct⟩
    rw [hop, hfunct]

/-- A word decodes to a mnemonic with some operands exactly where opcode and funct code are that mnemonic's, and the
operands are then its operand fields (R66). -/
theorem decode_eq_some_build_iff {m : Mnemonic} {o : ROps} {w : Word} :
    decode w = some (m.build o) ↔ (opcodeField w = 0#6 ∧ functField w = m.funct) ∧ o = operandFields w := by
  rw [decode_eq_some, decodeWord_ok_iff, Mnemonic.build_mnemonic, Mnemonic.build_ops, and_assoc, eq_comm (a := m.funct)]

/-- Settles O7: mask and match say what the decoder checks, and the operands are the fields it reads. -/
theorem opcodeTableRowsDecode : Obligations.OpcodeTableRowsDecode := by
  intro m w
  constructor
  · simp only [and_rowMask_eq_rowMatch_iff, decode_eq_some_build_iff, exists_and_left, exists_eq, and_true]
  · intro o h
    obtain ⟨-, rfl⟩ := decode_eq_some_build_iff.mp h
    exact ⟨indexField_val 21 w, indexField_val 16 w, indexField_val 11 w, indexField_val 6 w⟩

/-! ## The number of words that decode (R71) -/

/-- The words that decode are the instructions, by the codec. -/
def decodableEquiv : {w : Word // (decode w).isSome = true} ≃ Instr where
  toFun w := (decode w.val).get w.property
  invFun i := ⟨encode i, by simp⟩
  left_inv w := Subtype.ext (encode_of_decode (Option.some_get w.property).symm)
  right_inv i := by simp

/-- An instruction is a mnemonic and four 5-bit operand fields (R64). -/
def instrEquiv : Instr ≃ Mnemonic × Fin 32 × Fin 32 × Fin 32 × Fin 32 where
  toFun i := (i.mnemonic, i.ops.rd, i.ops.rs, i.ops.rt, i.ops.shamt)
  invFun := fun (m, rd, rs, rt, shamt) => m.build ⟨rd, rs, rt, shamt⟩
  left_inv i := Instr.build_mnemonic_ops i
  right_inv := fun (m, rd, rs, rt, shamt) => by simp

/-- There are five mnemonics (R2). -/
theorem card_mnemonic : Nat.card Mnemonic = 5 :=
  Nat.card_eq_of_equiv_fin
    { toFun := fun m => match m with | .and => 0 | .or => 1 | .add => 2 | .sub => 3 | .slt => 4
      invFun := fun k => Mnemonic.all[k]
      left_inv := fun m => by cases m <;> rfl
      right_inv := by decide }

/-- Settles O8: the words that decode are as many as the instructions, five times the quadruples of 5-bit fields. -/
theorem decodableWordCount : Obligations.DecodableWordCount := by
  unfold Obligations.DecodableWordCount
  rw [Nat.card_congr (decodableEquiv.trans instrEquiv)]
  simp only [Nat.card_prod, card_mnemonic, Nat.card_eq_fintype_card]
  norm_num

/-- Settles O1: every word is decoded by evaluation. -/
theorem specExampleWordsDecode : Obligations.SpecExampleWordsDecode := by
  unfold Obligations.SpecExampleWordsDecode
  decide

end Sys2Proof

end

section

/-! ## Every instruction completes: its result and its frame (R99, R107 to R118) -/

namespace Sys2Proof.Machine

/-- A state is itself but for any register and the PC. -/
theorem onlyRdAndPc_refl (rd : Reg) (s : State) : Claims.OnlyRdAndPc rd s s :=
  ⟨fun _ _ => rfl, fun _ => rfl, rfl, rfl, rfl, rfl, rfl, rfl, rfl⟩

/-- Retiring a result changes the destination and the PC alone (R99). -/
theorem onlyRdAndPc_retire (s : State) (rd : Reg) (v : Word) : Claims.OnlyRdAndPc rd s (s.retire rd v) :=
  ⟨fun r hr => by rw [State.reg_retire, if_neg hr], fun _ => rfl, rfl, rfl, rfl, rfl, rfl, rfl, rfl⟩

/-- Every instruction answers a next state in every state: its result in `rd`, the PC 4 higher modulo `2^32`, and nothing
else changed. -/
theorem exec_completes (i : Instr) (s : State) :
    ∃ t, exec i s = .next t ∧ t.reg i.ops.rd = resultWord i s ∧ t.pc = s.pc + 4#32 ∧
      Claims.OnlyRdAndPc i.ops.rd s t :=
  ⟨_, exec_eq_retire i s, State.reg_retire_same s _ _, rfl, onlyRdAndPc_retire s _ _⟩

/-- The destination holds the result after an instruction. -/
theorem reg_exec_dest {i : Instr} {s t : State} (h : exec i s = .next t) : t.reg i.ops.rd = resultWord i s := by
  rw [exec_eq_retire] at h
  cases h
  exact State.reg_retire_same s _ _

/-- Word subtraction is the exact difference of the numbers modulo `2^32` (R111). -/
theorem toNat_sub_eq_emod (a b : Word) : ((a - b).toNat : Int) = ((a.toNat : Int) - (b.toNat : Int)) % 2 ^ 32 := by
  have ha := a.isLt
  have hb := b.isLt
  rw [BitVec.toNat_sub]
  omega

/-- A condition word is 1 exactly where the condition holds. -/
theorem conditionWord_eq_one_iff (p : Bool) : conditionWord p = 1#32 ↔ p = true := by cases p <;> decide

/-- A condition word tells the condition. -/
theorem conditionWord_inj {p q : Bool} : conditionWord p = conditionWord q ↔ p = q := by
  cases p <;> cases q <;> decide

/-- Settles O9: each bit of a word AND is the AND of the bits. -/
theorem andCompletes : Obligations.AndCompletes := by
  intro o s
  obtain ⟨t, hexec, hresult, hpc, hframe⟩ := exec_completes (.and o) s
  replace hresult : t.reg o.rd = s.reg o.rs &&& s.reg o.rt := hresult
  refine ⟨t, hexec, fun k => ?_, fun heq => ?_, hpc, hframe⟩
  · rw [hresult, BitVec.getLsbD_and]
  · rw [hresult, heq, BitVec.and_self]

/-- Settles O10: each bit of a word OR is the OR of the bits. -/
theorem orCompletes : Obligations.OrCompletes := by
  intro o s
  obtain ⟨t, hexec, hresult, hpc, hframe⟩ := exec_completes (.or o) s
  replace hresult : t.reg o.rd = s.reg o.rs ||| s.reg o.rt := hresult
  refine ⟨t, hexec, fun k => ?_, fun hzero => ?_, hpc, hframe⟩
  · rw [hresult, BitVec.getLsbD_or]
  · rw [hresult, hzero, BitVec.or_zero]

/-- Settles O11: word addition is the exact sum modulo `2^32`. -/
theorem addCompletes : Obligations.AddCompletes := by
  intro o s
  obtain ⟨t, hexec, hresult, hpc, hframe⟩ := exec_completes (.add o) s
  replace hresult : (t.reg o.rd).toNat = ((s.reg o.rs).toNat + (s.reg o.rt).toNat) % 2 ^ 32 :=
    (congrArg BitVec.toNat hresult).trans (BitVec.toNat_add _ _)
  refine ⟨t, hexec, hresult, fun heq => ?_, hpc, hframe⟩
  rw [hresult, heq, Nat.two_mul]

/-- Settles O12: word subtraction is the exact difference modulo `2^32`, `rs` the minuend. -/
theorem subCompletes : Obligations.SubCompletes := by
  intro o s
  obtain ⟨t, hexec, hresult, hpc, hframe⟩ := exec_completes (.sub o) s
  replace hresult : t.reg o.rd = s.reg o.rs - s.reg o.rt := hresult
  refine ⟨t, hexec, ?_, fun heq => ?_, hpc, hframe⟩
  · rw [hresult, toNat_sub_eq_emod]
  · rw [hresult, heq, BitVec.sub_self]

/-- Settles O13: the condition word of the comparison the parameter selects. -/
theorem sltCompletes : Obligations.SltCompletes := by
  intro o s
  obtain ⟨t, hexec, hresult, hpc, hframe⟩ := exec_completes (.slt o) s
  replace hresult : t.reg o.rd = conditionWord (lessThan s.params.sltCompare (s.reg o.rs) (s.reg o.rt)) := hresult
  refine ⟨t, hexec, ?_, fun hsigned => ?_, fun hunsigned => ?_, hpc, hframe⟩
  · rw [hresult, conditionWord]
    split
    · exact .inl rfl
    · exact .inr rfl
  · rw [hresult, conditionWord_eq_one_iff, hsigned, lessThan, decide_eq_true_iff]
  · rw [hresult, conditionWord_eq_one_iff, hunsigned, lessThan, decide_eq_true_iff]

/-! ## The results as the spec's `alu` -/

/-- A word's number narrows to the word. -/
theorem ofNat_toNat_word (w : Word) : BitVec.ofNat 32 w.toNat = w := by
  rw [BitVec.ofNat_toNat, BitVec.setWidth_eq]

/-- The model's result is the spec's `alu` of the two sources: word arithmetic is exact arithmetic, narrowed (R108 to
R112). -/
theorem resultWord_build (m : Mnemonic) (o : ROps) (s : State) :
    resultWord (m.build o) s = Claims.alu s.params.sltCompare m (s.reg o.rs) (s.reg o.rt) := by
  cases m with
  | and => exact (ofNat_toNat_word _).symm
  | or => exact (ofNat_toNat_word _).symm
  | add => exact (ofNat_toNat_word _).symm
  | sub =>
    rw [Claims.alu, ← toNat_sub_eq_emod, BitVec.ofInt_natCast, ofNat_toNat_word]
    rfl
  | slt =>
    have hword (c : SltCompare) (a b : Word) : conditionWord (lessThan c a b) = Claims.alu c .slt a b := by
      cases c <;> exact if_congr decide_eq_true_iff rfl rfl
    exact hword _ _ _

/-- Every instruction leaves the spec's `alu` of its sources in its destination. -/
theorem exec_build_completes (m : Mnemonic) (o : ROps) (s : State) :
    ∃ t, exec (m.build o) s = .next t ∧
      t.reg o.rd = Claims.alu s.params.sltCompare m (s.reg o.rs) (s.reg o.rt) := by
  obtain ⟨t, hexec, hresult, -⟩ := exec_completes (m.build o) s
  rw [Mnemonic.build_ops, resultWord_build] at hresult
  exact ⟨t, hexec, hresult⟩

/-- Settles O16: the result reads `rs` and `rt` and goes to `rd`, so the next state is the same for every `shamt`. -/
theorem shamtMakesNoDifference : Obligations.ShamtMakesNoDifference := fun m o sh s =>
  ⟨_, exec_eq_retire (m.build o) s, by simp only [exec_eq_retire, Mnemonic.build_ops, resultWord_build]⟩

/-- The balanced residue differs from the number by a multiple of the modulus. -/
theorem exists_bmod_eq_add_mul (x : Int) (n : Nat) : ∃ k : Int, x.bmod n = x + k * n :=
  ⟨-x.bdiv n, by rw [Int.bmod_eq_self_sub_bdiv_mul, Int.sub_eq_add_neg, Int.neg_mul]⟩

/-- Settles O14: read as signed, word sum and difference are the balanced residues of the exact ones. -/
theorem signedReadingOfAddAndSub : Obligations.SignedReadingOfAddAndSub := by
  intro o s t u hadd hsub
  have hsum : (t.reg o.rd).toInt = ((s.reg o.rs).toInt + (s.reg o.rt).toInt).bmod (2 ^ 32) :=
    (congrArg BitVec.toInt (reg_exec_dest hadd)).trans (BitVec.toInt_add _ _)
  have hdiff : (u.reg o.rd).toInt = ((s.reg o.rs).toInt - (s.reg o.rt).toInt).bmod (2 ^ 32) :=
    (congrArg BitVec.toInt (reg_exec_dest hsub)).trans BitVec.toInt_sub
  refine ⟨?_, ?_, BitVec.le_toInt _, BitVec.toInt_lt⟩
  · rw [hsum]
    exact exists_bmod_eq_add_mul _ _
  · rw [hdiff]
    exact exists_bmod_eq_add_mul _ _

/-- Signed and unsigned comparison agree exactly on equal sign bits. -/
theorem lessThan_signed_eq_unsigned_iff (a b : Word) :
    lessThan .signed a b = lessThan .unsigned a b ↔ a.getLsbD 31 = b.getLsbD 31 := by
  have hmsb (w : Word) : w.getLsbD 31 = w.msb := (BitVec.msb_eq_getLsbD_last w).symm
  calc lessThan .signed a b = lessThan .unsigned a b
      ↔ (a.msb != b.msb).xor (a.ult b) = a.ult b := by rw [← BitVec.slt_eq_ult]; rfl
    _ ↔ a.getLsbD 31 = b.getLsbD 31 := by
      rw [hmsb, hmsb]
      cases a.msb <;> cases b.msb <;> simp

/-- Settles O15: the words written are condition words, equal where the two comparisons are. -/
theorem sltReadingsAgreeOnEqualSigns : Obligations.SltReadingsAgreeOnEqualSigns := by
  rintro o s u t v rfl hsigned ht hv
  have hsignedWord : t.reg o.rd = conditionWord (lessThan .signed (s.reg o.rs) (s.reg o.rt)) :=
    hsigned ▸ reg_exec_dest ht
  have hunsignedWord : v.reg o.rd = conditionWord (lessThan .unsigned (s.reg o.rs) (s.reg o.rt)) := reg_exec_dest hv
  rw [hsignedWord, hunsignedWord, conditionWord_inj, lessThan_signed_eq_unsigned_iff]

/-- Settles O18: with `rd = 0` the result stands in register 0, and any instruction computes with what its sources hold.
`add` changes register 0 where `x[9]` is 1; `or` with `$zero` copies a zero source only where register 0 adds no bit. -/
theorem registerZeroKeepsResults : Obligations.RegisterZeroKeepsResults := by
  refine ⟨fun m o s hrd => ?_, ?_, fun x0 => ⟨fun hcopy => ?_, ?_⟩⟩
  · obtain ⟨t, hexec, hresult⟩ := exec_build_completes m o s
    rw [hrd] at hresult
    refine ⟨t, hexec, hresult, fun n q => ⟨fun hrs => ?_, fun hrt => ?_⟩⟩
    · simpa only [hrs] using exec_build_completes n q t
    · simpa only [hrt] using exec_build_completes n q t
  · exact ⟨State.reset.setReg 9 1#32, _, exec_eq_retire _ _, by decide⟩
  · have hother : (State.reset.setReg 0 x0).reg 1 = 0#32 := State.reg_setReg_other State.reset x0 (by decide)
    obtain ⟨u, hexec, hu⟩ := hcopy ⟨1, 1, 0, 0⟩ (State.reset.setReg 0 x0) rfl (State.reg_setReg_same _ _ _)
    have hor : u.reg 1 = (State.reset.setReg 0 x0).reg 1 ||| (State.reset.setReg 0 x0).reg 0 := reg_exec_dest hexec
    rw [State.reg_setReg_same, hother, BitVec.zero_or] at hor
    exact hor.symm.trans (hu.trans hother)
  · rintro rfl q s hrt hzero
    obtain ⟨u, hexec, hor, -⟩ := exec_completes (.or q) s
    replace hor : u.reg q.rd = s.reg q.rs ||| s.reg q.rt := hor
    rw [hrt, hzero, BitVec.or_zero] at hor
    exact ⟨u, hexec, hor⟩

end Sys2Proof.Machine

end

section

/-! ## The step, case by case (R93 to R102) -/

namespace Sys2Proof.Machine

theorem step_misaligned {s : State} (hres : Config.reservedBoundary ≤ s.pc.toNat) (halign : s.pc.toNat % 4 ≠ 0) :
    step s = .fault (.misalignedFetch s.pc) :=
  step_stop (by rw [issue, if_neg (Nat.not_lt.mpr hres), if_pos halign])

theorem step_undecodable {s : State} (hres : Config.reservedBoundary ≤ s.pc.toNat) (halign : s.pc.toNat % 4 = 0)
    (hdec : decode (fetchWord s) = none) : step s = .fault (.decodeFailure s.pc (fetchWord s)) :=
  step_eq_fault_iff.mpr (issue_eq_decodeFailure_iff.mpr ⟨rfl, rfl, hres, halign, hdec⟩)

theorem step_topWord {s : State} {i : Instr} (htop : s.pc = Config.topWord) (hdec : decode (fetchWord s) = some i) :
    step s = .fault (.pcOverflow s.pc) :=
  step_stop (by simp [issue, hdec, htop, Config.topWord, Config.reservedBoundary])

theorem step_eq_exec {s : State} {i : Instr} (hpc : executablePc s.pc = true) (hdec : decode (fetchWord s) = some i) :
    step s = exec i s :=
  (step_run hpc hdec).trans (exec_eq_retire i s).symm

/-- From an executable PC the PC advances without wrapping (R98, R99). -/
theorem toNat_add_four {pc : Word} (h : executablePc pc = true) : (pc + 4#32).toNat = pc.toNat + 4 := by
  obtain ⟨-, -, htop⟩ := executablePc_iff.mp h
  rw [BitVec.toNat_add, show (4#32).toNat = 4 from rfl]
  omega

/-- Settles O20: the second check of the step. -/
theorem misalignedPcFaults : Obligations.MisalignedPcFaults := fun _ => step_misaligned

/-- Settles O22: `0xFFFFFFFC` is aligned and outside the reserved region, so the word is decoded before the last check. -/
theorem topOfAddressSpaceFaults : Obligations.TopOfAddressSpaceFaults := by
  intro s htop
  constructor
  · intro hdec
    obtain ⟨i, hi⟩ := Option.isSome_iff_exists.mp hdec
    rw [step_topWord htop hi, htop]
  · intro hdec
    rw [step_undecodable (htop ▸ by decide) (htop ▸ by decide) hdec, htop]

/-- Settles O23: the step retires the instruction's result. -/
theorem decodedInstructionAdvances : Obligations.DecodedInstructionAdvances := by
  intro s m o hres htop halign hdec
  have hpc : executablePc s.pc = true := executablePc_iff.mpr ⟨hres, halign, htop⟩
  obtain ⟨t, hexec, hresult, htpc, hframe⟩ := exec_completes (m.build o) s
  rw [Mnemonic.build_ops] at hresult hframe
  exact ⟨t, (step_eq_exec hpc hdec).trans hexec, hresult.trans (resultWord_build m o s),
    htpc ▸ toNat_add_four hpc, hframe⟩

/-- The checks of a step in their order: one of five things is so (R93, R127). -/
theorem pc_and_word_cases (s : State) :
    s.pc.toNat < 0x1000 ∨
    (0x1000 ≤ s.pc.toNat ∧ s.pc.toNat % 4 ≠ 0) ∨
    (0x1000 ≤ s.pc.toNat ∧ s.pc.toNat % 4 = 0 ∧ decode (fetchWord s) = none) ∨
    (∃ i, s.pc = Config.topWord ∧ decode (fetchWord s) = some i) ∨
    (∃ i, executablePc s.pc = true ∧ decode (fetchWord s) = some i) := by
  by_cases hres : s.pc.toNat < 0x1000
  · exact .inl hres
  replace hres := Nat.le_of_not_lt hres
  by_cases halign : s.pc.toNat % 4 = 0
  · cases hdec : decode (fetchWord s) with
    | none => exact .inr (.inr (.inl ⟨hres, halign, rfl⟩))
    | some i =>
      by_cases htop : s.pc = Config.topWord
      · exact .inr (.inr (.inr (.inl ⟨i, htop, rfl⟩)))
      · exact .inr (.inr (.inr (.inr ⟨i, by simp [executablePc, Config.reservedBoundary, hres, halign, htop], rfl⟩)))
  · exact .inr (.inl ⟨hres, halign⟩)

/-- Settles O24: in each of the five cases the pseudocode's branch is the step's rule for it. -/
theorem stepIsThePseudocode : Obligations.StepIsThePseudocode := by
  intro s
  rcases pc_and_word_cases s with
    hres | ⟨hres, halign⟩ | ⟨hres, halign, hdec⟩ | ⟨i, htop, hdec⟩ | ⟨i, hpc, hdec⟩
  · rw [if_pos hres, step_reserved hres]
  · rw [if_neg (Nat.not_lt.mpr hres), if_pos halign, step_misaligned hres halign]
  · rw [if_neg (Nat.not_lt.mpr hres), if_neg (not_not.mpr halign), step_undecodable hres halign hdec]
    rw [fetchWord] at hdec ⊢
    simp only [hdec]
  · rw [if_neg (by rw [htop]; decide), if_neg (by rw [htop]; decide), step_topWord htop hdec]
    rw [fetchWord] at hdec
    simp only [hdec]
    exact (if_pos htop).symm
  · obtain ⟨hres, halign, htop⟩ := executablePc_iff.mp hpc
    have hne : s.pc ≠ 0xFFFFFFFC#32 := fun h => absurd htop (by rw [h]; decide)
    rw [if_neg (Nat.not_lt.mpr hres), if_neg (not_not.mpr halign), step_run hpc hdec]
    rw [fetchWord] at hdec
    simp only [hdec, if_neg hne, ← resultWord_build, Instr.build_mnemonic_ops, State.retire]

/-- Settles O27: each of the five cases has its outcome. -/
theorem stepOutcomesAreTheSpecs : Obligations.StepOutcomesAreTheSpecs := by
  intro s
  rcases pc_and_word_cases s with
    hres | ⟨hres, halign⟩ | ⟨hres, halign, hdec⟩ | ⟨i, htop, hdec⟩ | ⟨i, hpc, hdec⟩
  · exact .inl ⟨s, step_reserved hres⟩
  · exact .inr (.inr (.inl (step_misaligned hres halign)))
  · exact .inr (.inl (step_undecodable hres halign hdec))
  · exact .inr (.inr (.inr (step_topWord htop hdec)))
  · exact .inl ⟨_, step_run hpc hdec⟩

/-- The word of the four bytes at an address decodes where those bytes do (R39, R41). -/
theorem decode_readWord_of_decodeBytes {order : ByteOrder} {m : Memory} {a : Nat} {i : Instr}
    (h : decodeBytes order (m.readBytes a 4) = .ok (i, [])) : decode (m.readWord order a) = some i := by
  have hbytes : decodeBytes order (m.readBytes a 4) = (decodeWord (m.readWord order a)).map fun i => (i, []) :=
    decodeBytes_four order _ _ _ _ []
  rw [hbytes] at h
  rw [decode_eq_some]
  cases hdec : decodeWord (m.readWord order a) with
  | error e => rw [hdec] at h; cases h
  | ok j => rw [hdec] at h; cases h; rfl

/-- Settles O25: the word at the PC decodes, and at an executable PC the step is `exec`. -/
theorem stepRunsTheDecodedInstruction : Obligations.StepRunsTheDecodedInstruction :=
  fun _ _ hres htop halign hbytes =>
    step_eq_exec (executablePc_iff.mpr ⟨hres, halign, htop⟩) (decode_readWord_of_decodeBytes hbytes)

/-- The weights of the four bytes of a word (R39). -/
theorem toNat_joinBytes (order : ByteOrder) (b0 b1 b2 b3 : Byte) :
    (joinBytes order b0 b1 b2 b3).toNat = match order with
      | .little => b0.toNat + 2 ^ 8 * b1.toNat + 2 ^ 16 * b2.toNat + 2 ^ 24 * b3.toNat
      | .big => 2 ^ 24 * b0.toNat + 2 ^ 16 * b1.toNat + 2 ^ 8 * b2.toNat + b3.toNat := by
  have happend {n : Nat} (x : BitVec n) (b : Byte) : (x ++ b).toNat = x.toNat * 2 ^ 8 + b.toNat := by
    rw [BitVec.toNat_append, ← Nat.shiftLeft_add_eq_or_of_lt b.isLt, Nat.shiftLeft_eq]
  cases order <;> simp only [joinBytes, happend] <;> omega

/-- A word the host writes at an address with four bytes up to the top (R40). -/
theorem hostDo_writeWord {a : Word} (v : Word) (s : State) (ha : a.toNat + 4 ≤ Config.addressSpace) :
    hostDo (.writeWord a v) s = ({ s with mem := s.mem.writeWord s.byteOrder a.toNat v }, .ok) :=
  if_pos ha

/-- Settles O26: the fetched word weighs its bytes by the byte order, and the word the host writes at the PC is the word
read back there. -/
theorem fetchReadsCurrentMemory : Obligations.FetchReadsCurrentMemory := by
  refine ⟨fun s => toNat_joinBytes s.byteOrder _ _ _ _, fun s i hmem hpc => ?_⟩
  have hroom : s.pc.toNat + 4 ≤ Config.addressSpace := by
    obtain ⟨-, -, htop⟩ := executablePc_iff.mp hpc
    rw [Config.addressSpace]
    omega
  rw [hostDo_writeWord _ s hroom]
  have hfetch : fetchWord { s with mem := s.mem.writeWord s.byteOrder s.pc.toNat (encode i) } = encode i :=
    Memory.readWord_writeWord s.byteOrder (encode i) hmem hroom
  exact step_eq_exec hpc ((congrArg decode hfetch).trans (decode_encode i))

/-- Settles O28: a step stands still in the reserved region or retires an instruction at an executable PC. -/
theorem stepAdvancesPcByFour : Obligations.StepAdvancesPcByFour := by
  intro s t hstep
  rcases step_eq_next hstep with ⟨hres, rfl⟩ | ⟨i, hpc, -, rfl⟩
  · exact ⟨.inl ⟨hres, rfl⟩, id⟩
  · obtain ⟨hres, -⟩ := executablePc_iff.mp hpc
    rw [State.retire_pc, toNat_add_four hpc]
    exact ⟨.inr ⟨hres, rfl⟩, fun halign => by omega⟩

/-- Settles O29: retiring a result changes `rd` and the PC alone. -/
theorem stepFrame : Obligations.StepFrame := by
  intro s t hstep
  rcases step_eq_next hstep with ⟨-, rfl⟩ | ⟨i, -, -, rfl⟩
  · exact ⟨0, onlyRdAndPc_refl 0 t⟩
  · exact ⟨i.ops.rd, onlyRdAndPc_retire s _ _⟩

/-- Settles O30: states that agree in what a step looks at step alike, and their checks stop alike. -/
theorem stepDependsOnArchitectureOnly : Obligations.StepDependsOnArchitectureOnly := by
  refine fun s s' harch hslt => ⟨fun t hstep => ?_, fun f hfault => ?_⟩
  · obtain ⟨t', hstep', hsame⟩ := State.SameRun.step ⟨harch, hslt⟩ hstep
    exact ⟨t', hstep', hsame.arch⟩
  · exact step_eq_fault_iff.mpr ((issue_congr harch).symm.trans (step_eq_fault_iff.mp hfault))

/-- Settles O52: a state its own step leaves alone, any number of steps does. -/
theorem reservedPcStandsStill : Obligations.ReservedPcStandsStill := fun _ hres =>
  ⟨step_reserved hres, run_of_step_self core (step_reserved hres)⟩

end Sys2Proof.Machine

end

section

/-! ## Passes and the run-loop (R104 to R106, R122 to R132) -/

namespace Sys2Proof.Machine

/-! ### A pass is a bounded run -/

/-- Why a pass of at most `n` steps, with the stop request due after `k` of them, ends after `j` steps in the state `t`
(R104). -/
def PassEnd.Reason (n : Nat) (k : Option Nat) (j : Nat) (t : State) : PassEnd → Prop
  | .bound => j = n ∧ ∀ m : Nat, k = some m → n < m
  | .stopSeen => k = some j
  | .fault f => step t = .fault f ∧ j < n ∧ ∀ m : Nat, k = some m → j < m
  | .refused _ => False

/-- One more step before a pass makes its bound, its request and its length one more. -/
theorem PassEnd.Reason.succ {n j : Nat} {k : Option Nat} {t : State} {e : PassEnd} (hk : k ≠ some 0)
    (h : e.Reason n (k.map Nat.pred) j t) : e.Reason (n + 1) k (j + 1) t := by
  have hpred {m : Nat} (hm : k = some m) : 0 < m ∧ k.map Nat.pred = some (m - 1) :=
    ⟨Nat.pos_of_ne_zero fun h0 => hk (h0 ▸ hm), by rw [hm]; rfl⟩
  cases e with
  | bound =>
    obtain ⟨rfl, hlater⟩ := h
    refine ⟨rfl, fun m hm => ?_⟩
    have := hlater _ (hpred hm).2
    omega
  | stopSeen =>
    obtain ⟨m, hm, hj⟩ := Option.map_eq_some_iff.mp h
    have := (hpred hm).1
    rw [Nat.pred_eq_sub_one] at hj
    exact hm.trans (congrArg some (by omega))
  | fault f =>
    obtain ⟨hstep, hlt, hlater⟩ := h
    refine ⟨hstep, Nat.succ_lt_succ hlt, fun m hm => ?_⟩
    have := hlater _ (hpred hm).2
    omega
  | refused r => exact h

/-- A pass performs some number of steps within its bound and ends for a reason (R104). -/
theorem exists_steps_execPass (n : Nat) : ∀ (k : Option Nat) (s : State),
    ∃ j ≤ n, Steps j s (execPass n k s).1 ∧ (execPass n k s).2.Reason n k j (execPass n k s).1 := by
  induction n with
  | zero =>
    intro k s
    by_cases hk : k = some 0
    · subst hk
      rw [execPass_stop]
      exact ⟨0, Nat.le_refl 0, .zero s, rfl⟩
    · rw [execPass_bound hk]
      exact ⟨0, Nat.le_refl 0, .zero s, rfl, fun m hm => Nat.pos_of_ne_zero fun h0 => hk (h0 ▸ hm)⟩
  | succ n ih =>
    intro k s
    by_cases hk : k = some 0
    · subst hk
      rw [execPass_stop]
      exact ⟨0, Nat.zero_le _, .zero s, rfl⟩
    · cases hstep : step s with
      | next t =>
        obtain ⟨j, hj, hsteps, hreason⟩ := ih (k.map Nat.pred) t
        rw [execPass_next hk hstep]
        exact ⟨j + 1, Nat.succ_le_succ hj, .succ hstep hsteps, hreason.succ hk⟩
      | fault f =>
        rw [execPass_fault hk hstep]
        exact ⟨0, Nat.zero_le _, .zero s, hstep, Nat.succ_pos n, fun m hm => Nat.pos_of_ne_zero fun h0 => hk (h0 ▸ hm)⟩
      | refused r => exact absurd hstep (step_ne_refused s r)

/-- Settles O40: the pass is a run that ends for a reason, and `exec()` is that pass with the clean flag cleared. -/
theorem execPassIsABoundedRun : Obligations.ExecPassIsABoundedRun := by
  refine ⟨fun n k s t e hpass => ?_, fun k s t e hpass => ?_⟩
  · obtain ⟨j, hj, hsteps, hreason⟩ := exists_steps_execPass n k s
    rw [hpass] at hsteps hreason
    refine ⟨j, hj, hsteps, ?_⟩
    cases e <;> exact hreason
  · simp only [hostDo, hostExec, hpass]

/-! ### Errors -/

/-- A fault of the step records the PC (R119). -/
theorem pc_of_step_fault {s : State} {f : Fault} (h : step s = .fault f) : f.pc = s.pc := by
  rcases stepOutcomesAreTheSpecs s with ⟨t, hs⟩ | hs | hs | hs <;>
  · rw [hs] at h
    cases h <;> rfl

/-- Settles O38: what the host's step, a pass and a turn of the loop do with a fault of the step. -/
theorem errorsStopTheRunAndAreReported : Obligations.ErrorsStopTheRunAndAreReported := by
  intro s f hfault
  refine ⟨congrArg Prod.snd (hostStep_fault hfault), fun n k hk => execPass_fault hk hfault, fun sees hrun hsees => ?_⟩
  rw [loopTurn_fault hfault hrun hsees]
  exact ⟨rfl, rfl⟩

/-- A turn of the loop whose step would fault writes no architectural state, whether it makes the step or not (R121). -/
theorem arch_loopTurn_of_step_fault {s : State} {f : Fault} (h : step s = .fault f) (sees : Bool) :
    (loopTurn sees s).1.arch = s.arch := by
  have hhost : (hostStep s).1.arch = s.arch := by rw [hostStep_fault h]; rfl
  rcases loopTurn_fst sees s with ht | ht | ht | ht <;> rw [ht]
  · exact State.endLoop_arch s
  · exact hhost
  · exact (State.endLoop_arch _).trans hhost

/-- Settles O39: a fault leaves the state but for the clean flag and the loop, which the step's checks do not look at. -/
theorem errorsWriteNoArchitecturalState : Obligations.ErrorsWriteNoArchitecturalState := by
  intro s f hfault
  have hhost : hostDo .step s = ({ s with clean := false }, .fault f) := hostStep_fault hfault
  refine ⟨by rw [hhost]; rfl, arch_loopTurn_of_step_fault hfault, ?_, pc_of_step_fault hfault⟩
  rw [hhost]
  exact (stepDependsOnArchitectureOnly s { s with clean := false } rfl rfl).2 f hfault

/-! ### The life of the run-loop -/

/-- A turn in the reserved region with no request pending clears the clean flag and does nothing else (R106). -/
theorem loopTurn_reserved {s : State} (hres : s.pc.toNat < 0x1000) (hrun : s.loop.running = true)
    (hreq : s.loop.stopRequest = false) (sees : Bool) : (loopTurn sees s).1 = { s with clean := false } := by
  obtain ⟨r, -, hturn⟩ := loopTurn_next (sees := sees) (step_reserved hres) hrun (by rw [hreq, Bool.and_false])
  rw [hturn]

/-- Settles O41: each turn leaves a state of the same kind. -/
theorem reservedRunNeverEnds : Obligations.ReservedRunNeverEnds := by
  intro s turns
  induction turns generalizing s with
  | nil => intro _ _ _; exact ⟨rfl, rfl⟩
  | cons sees turns ih =>
    intro hres hrun hreq
    rw [List.map_cons, runEvents, applyEvent, loopTurn_reserved hres hrun hreq]
    exact ih { s with clean := false } hres hrun hreq

/-- Settles O44: the first branch of `run`. -/
theorem runWhileRunningChangesNothing : Obligations.RunWhileRunningChangesNothing := fun _ _ hrun => if_pos hrun

/-- `run` leaves a run-loop active. -/
theorem running_hostDo_run (j : Bool) (s : State) : (hostDo (.run j) s).1.loop.running = true := by
  by_cases hrun : s.loop.running = true
  · rw [runWhileRunningChangesNothing s j hrun, hrun]
  · simp [hostDo, hostRun, hrun]

/-- Settles O43: the loop starts by `run`, goes on after a successful step, and ends by a fault or an observed request. -/
theorem runLoopLifecycle : Obligations.RunLoopLifecycle := by
  refine ⟨fun s j => ⟨running_hostDo_run j s, hostDo_run_arch j s, fun hrun => ?_⟩,
    fun s sees hrun hsees => ⟨?_, ?_⟩,
    fun s hrun => ⟨hrun, (loopTurn_observes (s := (hostDo .stop s).1) hrun hrun).2⟩, fun _ => rfl⟩
  · rw [runWhileRunningChangesNothing s j hrun]
  · intro t hstep
    obtain ⟨r, -, hturn⟩ := loopTurn_next hstep hrun hsees
    rw [hturn]
    exact ⟨rfl, (step_loop hstep).symm ▸ hrun⟩
  · intro f hfault
    rw [loopTurn_fault hfault hrun hsees]
    rfl

end Sys2Proof.Machine

end

section

/-! ## The invariant is kept (`State.Inv`) -/

namespace Sys2Proof.Machine

/-! ### One rule per update of the state -/

theorem State.Inv.setReg {s : State} (h : s.Inv) (r : Reg) (v : Word) : (s.setReg r v).Inv :=
  ⟨h.memory, h.engine, h.request, h.loopEngine, h.program, h.params⟩

theorem State.Inv.setPc {s : State} (h : s.Inv) (v : Word) : (s.setPc v).Inv :=
  ⟨h.memory, h.engine, h.request, h.loopEngine, h.program, h.params⟩

theorem State.Inv.setClean {s : State} (h : s.Inv) (b : Bool) : State.Inv { s with clean := b } :=
  ⟨h.memory, h.engine, h.request, h.loopEngine, h.program, h.params⟩

theorem State.Inv.setMem {s : State} (h : s.Inv) {m : Memory} (hm : m.wf = true) : State.Inv { s with mem := m } :=
  ⟨hm, h.engine, h.request, h.loopEngine, h.program, h.params⟩

theorem State.Inv.setLoop {s : State} (h : s.Inv) {l : RunLoop} (hrequest : l.stopRequest = true → l.running = true)
    (hengine : l.engine = .jit → s.engine = .jit) : State.Inv { s with loop := l } :=
  ⟨h.memory, h.engine, hrequest, hengine, h.program, h.params⟩

theorem State.Inv.endLoop {s : State} (h : s.Inv) : s.endLoop.Inv :=
  h.setLoop nofun h.loopEngine

/-- A new executor meets the invariant where its memory is canonical, its engine legal and its program loadable (R143). -/
theorem inv_create {p : Params} {order : ByteOrder} {engine : Engine} {program : Option (List Segment)} {m : Memory}
    (hm : m.wf = true) (hengine : engineLegal p order engine = true)
    (hprogram : ∀ gs, program = some gs → programWf gs = true) (hp : p.wf = true) :
    (State.create p order engine program m).Inv :=
  ⟨hm, hengine, nofun, nofun, hprogram, hp⟩

/-- Settles O51: the reset state is the empty executor of the default parameters. -/
theorem resetMeetsInvariant : Obligations.ResetMeetsInvariant :=
  inv_create (p := Params.default) (order := .little) (engine := .interpreter) (program := none) (m := [])
    rfl rfl nofun rfl

/-! ### Steps -/

/-- Settles O31: a step stands still, or writes a register and the PC. -/
theorem stepKeepsInvariant : Obligations.StepKeepsInvariant := by
  intro s t h hstep
  rcases step_eq_next hstep with ⟨-, rfl⟩ | ⟨i, -, -, rfl⟩
  · exact h
  · exact (h.setReg _ _).setPc _

/-- What holds at the start of a run of steps and is kept by each step holds at its end. -/
theorem Steps.keeps {P : State → Prop} (hstep : ∀ s t, P s → step s = .next t → P t) {k : Nat} {s t : State}
    (h : Steps k s t) : P s → P t := by
  induction h with
  | zero s => exact id
  | succ h _ ih => exact fun hs => ih (hstep _ _ hs h)

theorem State.Inv.hostStep {s : State} (h : s.Inv) : (hostStep s).1.Inv := by
  obtain ⟨u, hu, rfl | hstep⟩ := hostStep_fst s <;> rw [hu]
  · exact h.setClean false
  · exact (stepKeepsInvariant s u h hstep).setClean false

theorem State.Inv.hostExec {s : State} (h : s.Inv) (k : Option Nat) : (hostExec k s).1.Inv := by
  obtain ⟨j, -, hsteps, -⟩ := exists_steps_execPass s.params.execBound k s
  exact (hsteps.keeps stepKeepsInvariant h).setClean false

theorem State.Inv.loopTurn {s : State} (h : s.Inv) (sees : Bool) : (loopTurn sees s).1.Inv := by
  rcases loopTurn_fst sees s with ht | ht | ht | ht <;> rw [ht]
  · exact h
  · exact h.endLoop
  · exact h.hostStep
  · exact h.hostStep.endLoop

/-! ### Host operations -/

/-- `assemble` succeeds, or is rejected and leaves the state (R124). -/
theorem hostDo_assemble_cases (order : ByteOrder) (engine : Engine) (src : Text) (s : State) :
    (∃ t, hostDo (.assemble order engine src) s = (t, .ok)) ∨
      ∃ r, hostDo (.assemble order engine src) s = (s, .rejected r) := by
  simp only [hostDo, hostAssemble]
  split
  · exact .inr ⟨_, rfl⟩
  · split
    · exact .inr ⟨_, rfl⟩
    · split
      · exact .inl ⟨_, rfl⟩
      · exact .inr ⟨_, rfl⟩

theorem State.Inv.assemble {s : State} (h : s.Inv) (order : ByteOrder) (engine : Engine) (src : Text) :
    (hostDo (.assemble order engine src) s).1.Inv := by
  rcases hostDo_assemble_cases order engine src s with ⟨t, ht⟩ | ⟨r, hr⟩
  · obtain ⟨gs, m, -, hload, hengine, rfl⟩ := assemble_ok ht
    rw [ht]
    refine inv_create (wf_loadMemory hload) hengine (fun gs' hgs => ?_) h.params
    cases hgs
    exact (loadMemory_ok_iff.mp hload).1
  · rw [hr]
    exact h

/-- `reset()` with no program makes the empty executor (R133, D17). -/
theorem hostDo_reset_none {s : State} (h : s.program = none) :
    hostDo .reset s = (State.create s.params s.byteOrder s.engine none [], .ok) := by
  simp only [hostDo, hostReset, h]

/-- `reset()` with a program loads it again (R133, D17). -/
theorem hostDo_reset_some {s : State} {gs : List Segment} {m : Memory} (h : s.program = some gs)
    (hload : loadMemory gs = .ok m) :
    hostDo .reset s = (State.create s.params s.byteOrder s.engine (some gs) m, .ok) := by
  simp only [hostDo, hostReset, h, hload]

theorem State.Inv.reset {s : State} (h : s.Inv) : (hostDo .reset s).1.Inv := by
  cases hprog : s.program with
  | none =>
    rw [hostDo_reset_none hprog]
    exact inv_create rfl h.engine nofun h.params
  | some gs =>
    have hload : loadMemory gs = .ok (gs.foldl loadSegment []) := loadMemory_ok_iff.mpr ⟨h.program gs hprog, rfl⟩
    rw [hostDo_reset_some hprog hload]
    exact inv_create (wf_loadMemory hload) h.engine (fun gs' hgs => h.program gs' (hprog.trans hgs)) h.params

theorem State.Inv.editRegister {s : State} (h : s.Inv) (name : Text) (v : Word) :
    (hostDo (.editRegister name v) s).1.Inv := by
  simp only [hostDo, hostEditRegister]
  split
  · exact (h.setPc v).setClean false
  · split
    · exact (h.setReg _ v).setClean false
    · exact h

/-- A run uses the JIT only on a JIT executor (R101, R133). -/
theorem engine_of_runEngine {j : Bool} {s : State} (h : runEngine j s = .jit) : s.engine = .jit := by
  unfold runEngine at h
  split at h
  · rename_i hjit
    simp only [Bool.and_eq_true, decide_eq_true_eq] at hjit
    obtain ⟨⟨-, hengine⟩, -⟩ := hjit
    exact hengine
  · cases h

theorem State.Inv.run {s : State} (h : s.Inv) (j : Bool) : (hostDo (.run j) s).1.Inv := by
  simp only [hostDo, hostRun]
  split
  · exact h
  · exact h.setLoop nofun engine_of_runEngine

theorem State.Inv.writeWord {s : State} (h : s.Inv) (a v : Word) : (hostDo (.writeWord a v) s).1.Inv := by
  simp only [hostDo, hostWriteWord]
  split
  · exact h.setMem (Memory.wf_writeWord v h.memory ‹_›)
  · exact h

theorem State.Inv.hostDo {s : State} (h : s.Inv) (op : HostOp) : (hostDo op s).1.Inv := by
  cases op with
  | assemble order engine src => exact h.assemble order engine src
  | reset => exact h.reset
  | editRegister name v => exact h.editRegister name v
  | step => exact h.hostStep
  | exec k => exact h.hostExec k
  | run j => exact h.run j
  | stop => exact h.setLoop id h.loopEngine
  | isRunning | canUseJit | readPc | readReg _ | readByte _ => exact h
  | readMemory page => rwa [hostDo_readMemory]
  | readU32 a => rwa [hostDo_readU32]
  | readIntoSlice a len => rwa [hostDo_readIntoSlice]
  | writePc v => exact h.setPc v
  | writeReg r v => exact h.setReg r v
  | writeByte a b => exact h.setMem (Memory.wf_write b h.memory a.isLt)
  | writeWord a v => exact h.writeWord a v

/-- Settles O50: every host operation and every turn of the run-loop has its rule. -/
theorem eventsKeepInvariant : Obligations.EventsKeepInvariant := by
  intro e s h
  cases e with
  | host op => exact h.hostDo op
  | turn sees => exact h.loopTurn sees

end Sys2Proof.Machine

end

section

/-! ## Memory: its form, its building, and the host's reads and writes (R35 to R46) -/

namespace Sys2Proof.Machine

/-! ### The canonical form is unique -/

theorem Memory.wfFrom_cons {lo k : Nat} {v : Byte} {m : Memory} : Memory.wfFrom lo ((k, v) :: m) = true ↔
    lo ≤ k ∧ k < Config.addressSpace ∧ v ≠ 0#8 ∧ Memory.wfFrom (k + 1) m = true := by
  simp only [Memory.wfFrom, Bool.and_eq_true, decide_eq_true_eq, and_assoc]

theorem Memory.read_cons_same (k : Nat) (v : Byte) (m : Memory) : Memory.read ((k, v) :: m) k = v := if_pos rfl

/-- The first listed address of a canonical memory is no higher than any address that does not read zero. -/
theorem Memory.head_le_of_read_ne_zero {lo k a : Nat} {v : Byte} {m : Memory}
    (h : Memory.wfFrom lo ((k, v) :: m) = true) (ha : Memory.read ((k, v) :: m) a ≠ 0#8) : k ≤ a := by
  obtain ⟨-, hk⟩ := Memory.wfFrom_cons.mp h
  by_contra hlt
  exact ha (Memory.read_below (Memory.wfFrom_cons.mpr ⟨Nat.le_refl k, hk⟩) (by omega))

/-- Canonical memories that read alike have tails that read alike, once their first entries are the same. -/
theorem Memory.read_tail_alike {k : Nat} {v : Byte} {m n : Memory} (hm : Memory.wfFrom (k + 1) m = true)
    (hn : Memory.wfFrom (k + 1) n = true)
    (hread : ∀ a, Memory.read ((k, v) :: m) a = Memory.read ((k, v) :: n) a) (a : Nat) :
    Memory.read m a = Memory.read n a := by
  by_cases ha : a = k
  · have hlt : a < k + 1 := by omega
    rw [Memory.read_below hm hlt, Memory.read_below hn hlt]
  · simpa only [Memory.read, if_neg ha] using hread a

/-- Canonical memories that read alike are equal: of two first entries at different addresses the lower one would be an
address the other memory reads as zero. -/
theorem Memory.ext_of_wfFrom {m n : Memory} : ∀ {lo : Nat}, Memory.wfFrom lo m = true → Memory.wfFrom lo n = true →
    (∀ a, Memory.read m a = Memory.read n a) → m = n := by
  induction m generalizing n with
  | nil =>
    intro lo _ hn hread
    cases n with
    | nil => rfl
    | cons c n =>
      obtain ⟨-, -, hv, -⟩ := Memory.wfFrom_cons.mp hn
      exact absurd ((Memory.read_cons_same c.1 c.2 n).symm.trans (hread c.1).symm) hv
  | cons c m ih =>
    intro lo hm hn hread
    obtain ⟨k, v⟩ := c
    obtain ⟨-, -, hv, hm'⟩ := Memory.wfFrom_cons.mp hm
    have hkv : Memory.read n k = v := (hread k).symm.trans (Memory.read_cons_same k v m)
    cases n with
    | nil => exact absurd hkv.symm hv
    | cons d n =>
      obtain ⟨l, w⟩ := d
      obtain ⟨-, -, hw, hn'⟩ := Memory.wfFrom_cons.mp hn
      have hlw : Memory.read ((k, v) :: m) l = w := (hread l).trans (Memory.read_cons_same l w n)
      obtain rfl : k = l := Nat.le_antisymm (Memory.head_le_of_read_ne_zero hm (hlw ▸ hw))
        (Memory.head_le_of_read_ne_zero hn (hkv ▸ hv))
      obtain rfl : w = v := (Memory.read_cons_same k w n).symm.trans hkv
      rw [ih hm' hn' (Memory.read_tail_alike hm' hn' hread)]

/-- Settles O36: a canonical memory is canonical from address 0 on. -/
theorem canonicalMemoriesAreExtensional : Obligations.CanonicalMemoriesAreExtensional :=
  fun _ _ hm hn hread => Memory.ext_of_wfFrom hm hn hread

/-! ### Building a memory from segments -/

/-- Settles O32: the empty memory, which every executor without a program has, lists no byte. -/
theorem emptyMemoryReadsZero : Obligations.EmptyMemoryReadsZero := by
  refine ⟨Memory.read_nil, fun s hprog a => ?_, fun m hload a => ?_⟩
  · rw [hostDo_reset_none hprog]
    exact Memory.read_nil a
  · obtain ⟨-, rfl⟩ := loadMemory_ok_iff.mp hload
    exact Memory.read_nil a

/-- Two segments overlap exactly where some address lies in both (R38). -/
theorem overlaps_eq_false_iff_not_covers (g h : Segment) : g.overlaps h = false ↔ ¬∃ a, g.Covers a ∧ h.Covers a := by
  rw [Segment.overlaps_eq_false_iff]
  constructor
  · rintro hgap ⟨a, hg, hh⟩
    unfold Segment.Covers at hg hh
    omega
  · intro hnone
    by_contra hgap
    exact hnone ⟨max g.base.toNat h.base.toNat, by unfold Segment.Covers; omega, by unfold Segment.Covers; omega⟩

/-- The check of a segment list for overlap, as a statement about its pairs (R38). -/
theorem segmentsDisjoint_iff {gs : List Segment} :
    segmentsDisjoint gs = true ↔ gs.Pairwise fun g h => ¬∃ a, g.Covers a ∧ h.Covers a := by
  induction gs with
  | nil => simp [segmentsDisjoint]
  | cons g gs ih =>
    simp only [segmentsDisjoint, Bool.and_eq_true, List.all_eq_true, Bool.not_eq_true',
      overlaps_eq_false_iff_not_covers, List.pairwise_cons, ih]

/-- Settles O34: a memory is built exactly where both checks of the list pass. -/
theorem loadRefusesExactlyOverlapAndPastTop : Obligations.LoadRefusesExactlyOverlapAndPastTop := by
  intro gs
  have hload : (∃ m, loadMemory gs = .ok m) ↔ programWf gs = true := by
    simp only [loadMemory_ok_iff, exists_and_left, exists_eq, and_true]
  rw [hload, programWf, Bool.and_eq_true, segmentsDisjoint_iff, List.all_eq_true]
  simp only [Segment.fits_iff]
  rfl

/-! ### The host's writes -/

/-- The bytes of a word as numbers (R40). -/
theorem toNat_getD_splitWord (order : ByteOrder) (v : Word) {i : Nat} (hi : i < 4) :
    ((splitWord order v).getD i 0#8).toNat =
      if order = .little then v.toNat / 2 ^ (8 * i) % 256 else v.toNat / 2 ^ (8 * (3 - i)) % 256 := by
  have hbyte (lo : Nat) : (v.extractLsb' lo 8).toNat = v.toNat / 2 ^ lo % 256 := by
    rw [BitVec.extractLsb'_toNat, Nat.shiftRight_eq_div_pow]
  cases order <;> interval_cases i <;> exact hbyte _

/-- Settles O35: the rules of `writeWord`, its four bytes taken one at a time. -/
theorem hostWordWriteReadsBack : Obligations.HostWordWriteReadsBack := by
  intro s a v hmem ha
  refine ⟨_, hostDo_writeWord v s ha, ?_, fun i hi => ?_, fun x hx => ?_, Memory.wf_writeWord v hmem ha, rfl⟩
  · exact (if_pos ha).trans
      (congrArg (fun w => (_, HostReturn.word w)) (Memory.readWord_writeWord s.byteOrder v hmem ha))
  · rw [Memory.read_writeWord s.byteOrder v hmem ha, if_pos (by omega), Nat.add_sub_cancel_left,
      toNat_getD_splitWord s.byteOrder v hi]
  · rw [Memory.read_writeWord s.byteOrder v hmem ha, if_neg hx]

/-- Settles O59: the rule of `write`. -/
theorem hostByteWriteReadsBack : Obligations.HostByteWriteReadsBack := by
  intro s a b hmem
  have hread (x : Nat) : Memory.read (s.mem.write a.toNat b) x = if x = a.toNat then b else Memory.read s.mem x :=
    Memory.read_write_wf hmem a.toNat b x
  refine ⟨_, rfl, ?_, fun x hx => ?_, fun x hx => ?_, Memory.wf_write b hmem a.isLt, rfl⟩
  · simp only [hostDo, hread, if_true]
  · simp only [hostDo, hread, if_neg fun h => hx (BitVec.eq_of_toNat_eq h)]
  · rw [hread, if_neg hx]

/-! ### The host's reads -/

/-- The `i`-th of the bytes read from an address (R42). -/
theorem Memory.getElem?_readBytes (m : Memory) (a : Nat) {n i : Nat} (hi : i < n) :
    (m.readBytes a n)[i]? = some (Memory.read m (a + i)) := by
  simp [Memory.readBytes, hi]

/-- Settles O37: both branches of each read. -/
theorem hostReadsReturnStoredBytes : Obligations.HostReadsReturnStoredBytes := by
  intro s a n page
  refine ⟨fun h => ⟨_, if_pos h, Memory.length_readBytes _ _ _, fun i hi => Memory.getElem?_readBytes _ _ hi⟩,
    fun h => if_neg (Nat.not_lt.mpr h),
    fun h => ⟨_, if_pos h, Memory.length_readBytes _ _ _, fun i hi => Memory.getElem?_readBytes _ _ hi⟩,
    fun h => if_neg (Nat.not_le.mpr h), fun h => if_pos h, fun h => if_neg (Nat.not_le.mpr h)⟩

end Sys2Proof.Machine

end

section

/-! ## The host interface (R133, R134, R143) -/

namespace Sys2Proof.Machine

/-! ### `assemble` -/

/-- Lines that assemble before one that is an error make its error that of the whole text, whatever follows (R91). -/
theorem asmLines_error {order : ByteOrder} {before after : List Text} {l : Text} {a : AsmState} {e : AsmError}
    (hbefore : asmLines order before AsmState.start = .ok a) (hl : asmLine order l a = .error e) :
    asmLines order (before ++ l :: after) AsmState.start = .error e := by
  rw [asmLines_append hbefore, asmLines, hl]

/-- Settles O46: the first error ends the assembly, and every rejection of `assemble` leaves the state. -/
theorem assemblerErrorsTouchNothing : Obligations.AssemblerErrorsTouchNothing := by
  refine ⟨fun order src before after l a e hsrc hbefore hl => ?_, fun order engine src s e herror => ?_,
    fun order engine src s hne => ?_⟩
  · rw [assembleText, hsrc, asmLines_error hbefore hl]
  · simp only [hostDo, hostAssemble, herror]
  · rcases hostDo_assemble_cases order engine src s with ⟨t, ht⟩ | ⟨r, hr⟩
    · exact absurd (congrArg Prod.snd ht) hne
    · exact congrArg Prod.fst hr

/-- A legal JIT is one under the host's byte order (R148). -/
theorem order_eq_hostOrder_of_engineLegal {p : Params} {order : ByteOrder} {engine : Engine}
    (h : engineLegal p order engine = true) (hjit : engine = .jit) : order = p.hostOrder := by
  subst hjit
  exact of_decide_eq_true h

/-- Settles O47: the new executor is `State.create` of what was asked for and the loaded memory. -/
theorem assembleMakesANewExecutor : Obligations.AssembleMakesANewExecutor := by
  intro order engine src s t h
  obtain ⟨gs, m, htext, hload, hengine, rfl⟩ := assemble_ok h
  exact ⟨gs, htext, hload, fun _ => rfl, rfl, rfl, rfl, order_eq_hostOrder_of_engineLegal hengine,
    rfl, rfl, rfl, rfl, rfl⟩

/-! ### `reset` -/

/-- What `reset()` builds the new executor from (R133, D17). -/
def State.resetBase (s : State) : Params × ByteOrder × Engine × Option (List Segment) :=
  (s.params, s.byteOrder, s.engine, s.program)

theorem resetBase_step {s t : State} (h : step s = .next t) : t.resetBase = s.resetBase := by
  rcases step_eq_next h with ⟨-, rfl⟩ | ⟨i, -, -, rfl⟩ <;> rfl

theorem resetBase_hostStep (s : State) : (hostStep s).1.resetBase = s.resetBase := by
  obtain ⟨u, hu, rfl | hstep⟩ := hostStep_fst s <;> rw [hu]
  · rfl
  · change u.resetBase = s.resetBase
    exact resetBase_step hstep

theorem resetBase_hostExec (k : Option Nat) (s : State) : (hostExec k s).1.resetBase = s.resetBase := by
  obtain ⟨j, -, hsteps, -⟩ := exists_steps_execPass s.params.execBound k s
  exact hsteps.keeps (P := fun t => t.resetBase = s.resetBase) (fun _ _ h hstep => (resetBase_step hstep).trans h) rfl

theorem resetBase_loopTurn (sees : Bool) (s : State) : (loopTurn sees s).1.resetBase = s.resetBase := by
  rcases loopTurn_fst sees s with ht | ht | ht | ht <;> rw [ht]
  · rfl
  · exact resetBase_hostStep s
  · exact resetBase_hostStep s

/-- A `reset()` that succeeds makes a new executor of the state's own program; one that does not leaves the state. -/
theorem hostDo_reset_cases (s : State) :
    (∃ m, hostDo .reset s = (State.create s.params s.byteOrder s.engine s.program m, .ok)) ∨
      ∃ r, hostDo .reset s = (s, .rejected r) := by
  simp only [hostDo, hostReset]
  split
  · rename_i hprog
    exact .inl ⟨[], by rw [hprog]⟩
  · rename_i gs hprog
    split
    · exact .inl ⟨_, by rw [hprog]⟩
    · exact .inr ⟨_, rfl⟩

theorem resetBase_reset (s : State) : (hostDo .reset s).1.resetBase = s.resetBase := by
  rcases hostDo_reset_cases s with ⟨m, h⟩ | ⟨r, h⟩ <;> rw [h]
  rfl

theorem resetBase_hostDo {op : HostOp} (hop : Claims.noAssemble (.host op) = true) (s : State) :
    (hostDo op s).1.resetBase = s.resetBase := by
  cases op with
  | assemble order engine src => cases hop
  | reset => exact resetBase_reset s
  | editRegister name v => 
    simp only [hostDo, hostEditRegister]
    split
    · rfl
    · split <;> rfl
  | step => exact resetBase_hostStep s
  | exec k => exact resetBase_hostExec k s
  | run j => simp only [hostDo, hostRun]; split <;> rfl
  | readMemory page => rw [hostDo_readMemory]
  | readU32 a => rw [hostDo_readU32]
  | readIntoSlice a len => rw [hostDo_readIntoSlice]
  | writeWord a v => simp only [hostDo, hostWriteWord]; split <;> rfl
  | stop | isRunning | canUseJit | readPc | readReg _ | readByte _ | writePc _ | writeReg _ _ | writeByte _ _ => rfl

/-- Events that are no `assemble` leave what `reset()` builds from. -/
theorem resetBase_runEvents {es : List Event} :
    ∀ {s : State}, (∀ e ∈ es, Claims.noAssemble e = true) → (runEvents es s).resetBase = s.resetBase := by
  induction es with
  | nil => intro s _; rfl
  | cons e es ih =>
    intro s hes
    rw [List.forall_mem_cons] at hes
    obtain ⟨he, hes⟩ := hes
    refine (ih hes).trans ?_
    cases e with
    | host op => exact resetBase_hostDo he s
    | turn sees => exact resetBase_loopTurn sees s

/-- Settles O48: `reset()` builds from what `assemble` built from, and no event in between changes it. -/
theorem resetRestoresTheAssembledState : Obligations.ResetRestoresTheAssembledState := by
  intro order engine src s t es hassemble hes
  obtain ⟨gs, m, -, hload, -, rfl⟩ := assemble_ok hassemble
  have hbase := resetBase_runEvents (s := State.create s.params order engine (some gs) m) hes
  simp only [State.resetBase, Prod.mk.injEq] at hbase
  obtain ⟨hparams, horder, hengine, hprogram⟩ := hbase
  rw [hostDo_reset_some hprogram hload, hparams, horder, hengine]
  rfl

/-- Settles O58: the fields of the reset state as it is defined. -/
theorem resetStateFields : Obligations.ResetStateFields :=
  ⟨Memory.read_nil, rfl, rfl, rfl, rfl, by decide, rfl, rfl, rfl, rfl⟩

/-! ### `edit_register` -/

/-- The statements' table of register names is the model's (R14). -/
theorem registerNames_eq : registerNames = Claims.namedRegisters := by decide

/-- A name of the table is looked up as its register: no name stands in it twice. -/
theorem lookup_registerNames_iff {name : Text} {r : Reg} :
    registerNames.lookup name = some r ↔ (name, r) ∈ Claims.namedRegisters := by
  rw [← registerNames_eq]
  constructor
  · intro h
    obtain ⟨l₁, l₂, h, -⟩ := List.lookup_eq_some_iff.mp h
    rw [h]
    simp
  · have hall : ∀ p ∈ registerNames, registerNames.lookup p.1 = some p.2 := by decide
    exact hall (name, r)

/-- No name of the table is numeric. -/
theorem parseNumericRegister_eq_none_of_lookup {name : Text} {r : Reg} (h : registerNames.lookup name = some r) :
    parseNumericRegister name = none := by
  have hall : ∀ p ∈ registerNames, parseNumericRegister p.1 = none := by decide
  exact hall (name, r) (registerNames_eq ▸ lookup_registerNames_iff.mp h)

/-- The numeric form is a dollar sign and a decimal numeral (R15). -/
theorem parseNumericRegister_iff {name : Text} {r : Reg} :
    parseNumericRegister name = some r ↔ ∃ ds : Text, name = '$' :: ds ∧ Claims.IsDecimal ds r.val := by
  simp only [parseNumericRegister_eq_some, digitsFrom_ten, Claims.IsDecimal]

/-- A text is read as a register exactly where it names it (R14, R15). -/
theorem parseRegister_eq_some_iff {name : Text} {r : Reg} :
    parseRegister name = some r ↔ Claims.NamesRegister name r := by
  rw [Claims.NamesRegister, ← lookup_registerNames_iff, ← parseNumericRegister_iff, parseRegister]
  cases h : registerNames.lookup name with
  | none => simp
  | some q => simp [parseNumericRegister_eq_none_of_lookup h]

/-- `edit_register` with a text that is read as a register. -/
theorem hostDo_editRegister_reg {name : Text} {r : Reg} (h : parseRegister name = some r) (v : Word) (s : State) :
    hostDo (.editRegister name v) s = ({ s.setReg r v with clean := false }, .ok) := by
  have hpc : name ≠ ['p', 'c'] := by
    rintro rfl
    have hnone : parseRegister ['p', 'c'] = none := by decide
    exact absurd (hnone.symm.trans h) (Option.some_ne_none r).symm
  simp only [hostDo, hostEditRegister, if_neg hpc, h]

/-- Settles O49: `pc` is no register's name, and every other text is read as the register it names, if it names one. -/
theorem editRegisterWritesTheNamedRegister : Obligations.EditRegisterWritesTheNamedRegister := by
  refine ⟨fun s name r v hname => ?_, fun s v => rfl, fun s name v hpc hnone => ?_⟩
  · refine ⟨_, hostDo_editRegister_reg (parseRegister_eq_some_iff.mpr hname) v s, State.reg_setReg_same s r v, rfl, ?_⟩
    exact ⟨fun q hq => State.reg_setReg_other s v hq, fun _ => rfl, rfl, rfl, rfl, rfl, rfl, rfl, rfl⟩
  · have hparse : parseRegister name = none :=
      Option.eq_none_iff_forall_ne_some.mpr fun r h => hnone r (parseRegister_eq_some_iff.mp h)
    have hpc' : name ≠ ['p', 'c'] := hpc
    simp only [hostDo, hostEditRegister, if_neg hpc', hparse]

/-! ### The clean flag -/

/-- An accepted `edit_register` clears the clean flag (R134). -/
theorem clean_of_editRegister_ok {name : Text} {v : Word} {s t : State}
    (h : hostDo (.editRegister name v) s = (t, .ok)) : t.clean = false := by
  simp only [hostDo, hostEditRegister] at h
  split at h
  · cases h
    rfl
  · split at h <;> cases h
    rfl

/-- Settles O45: a new executor is clean; steps and accepted edits clear the flag; quiet operations leave it. -/
theorem cleanFlagTracksMutation : Obligations.CleanFlagTracksMutation := by
  intro s
  refine ⟨fun t hreset => ?_, fun order engine src t hassemble => ?_, ?_, fun k => rfl,
    fun name v t => clean_of_editRegister_ok, fun op hop => ?_⟩
  · rcases hostDo_reset_cases s with ⟨m, h⟩ | ⟨r, h⟩ <;> rw [h] at hreset <;> cases hreset
    rfl
  · obtain ⟨gs, m, -, -, -, rfl⟩ := assemble_ok hassemble
    rfl
  · obtain ⟨u, hu, -⟩ := hostStep_fst s
    exact congrArg State.clean hu
  · cases op <;> simp [Claims.opIsQuiet] at hop ⊢

end Sys2Proof.Machine

end

section

/-! ## What the assembler keeps from line to line (R75 to R91) -/

namespace Sys2Proof.Machine

/-! ### Blank and long lines -/

/-- A line that is not too long and empty once stripped does nothing (R75). -/
theorem asmLine_blank {order : ByteOrder} {l : Text} (hlen : l.length ≤ Config.lineLimit)
    (hstrip : stripLine l = []) (a : AsmState) :
    asmLine order l a = .ok a := by
  rw [asmLine, if_neg (Nat.not_lt.mpr hlen), hstrip]
  rfl

theorem asmLines_blank {order : ByteOrder} {ls : List Text} (a : AsmState)
    (h : ∀ l ∈ ls, l.length ≤ Config.lineLimit ∧ stripLine l = []) : asmLines order ls a = .ok a := by
  induction ls with
  | nil => rfl
  | cons l ls ih =>
    rw [List.forall_mem_cons] at h
    obtain ⟨⟨hlen, hstrip⟩, hls⟩ := h
    rw [asmLines, asmLine_blank hlen hstrip]
    exact ih hls

/-- Settles O53: blank lines leave the start of the assembly, which has no segment. -/
theorem blankSourceYieldsNoSegments : Obligations.BlankSourceYieldsNoSegments := by
  intro order src h
  rw [assembleText, asmLines_blank AsmState.start h]
  rfl

/-- Settles O54: the length is the first thing a line is checked for. -/
theorem longLineIsRejected : Obligations.LongLineIsRejected := fun _ _ _ _ _ hbefore hlen =>
  asmLines_error hbefore (if_pos hlen)

/-! ### Segments and marks -/

/-- The segments end with the one lines append to. -/
theorem AsmState.segments_of_cur {a : AsmState} {g : Segment} (h : a.cur = some g) : a.segments = a.done ++ [g] := by
  rw [AsmState.segments, h]
  rfl

/-- A legal base address fits a word. -/
theorem lt_of_inRange {c : SegClass} {b : Nat} (h : c.inRange b = true) : b < 2 ^ 32 := by
  cases c <;> simp only [SegClass.inRange, Bool.and_eq_true, decide_eq_true_eq] at h <;> omega

/-- Every segment's base is in its class's range. -/
def AsmState.BasesOk (a : AsmState) : Prop := ∀ g ∈ a.segments, g.baseOk = true

/-- A line that assembles keeps the bases in range: only opening a segment sets a base, and it checks it (R81). -/
theorem AsmState.BasesOk.asmLine {order : ByteOrder} {l : Text} {a a' : AsmState} (h : a.BasesOk)
    (hl : asmLine order l a = .ok a') : a'.BasesOk := by
  rcases asmLine_ok hl with rfl | ⟨c, b, hopen⟩ | ⟨n, rfl⟩ | ⟨g, bs, hcur, rfl⟩
  · exact h
  · obtain ⟨hb, rfl⟩ := AsmState.openAt_ok hopen
    refine List.forall_mem_append.mpr ⟨h, List.forall_mem_singleton.mpr ?_⟩
    change c.inRange (BitVec.ofNat 32 b).toNat = true
    rwa [BitVec.toNat_ofNat, Nat.mod_eq_of_lt (lt_of_inRange hb)]
  · exact h
  · rw [AsmState.BasesOk, AsmState.segments_of_cur hcur, List.forall_mem_append, List.forall_mem_singleton] at h
    rw [AsmState.BasesOk, AsmState.segments_append, List.forall_mem_append, List.forall_mem_singleton]
    exact h

/-- Settles O55: the start has no segment, and every line keeps the bases in range. -/
theorem assembledBasesAreInRange : Obligations.AssembledBasesAreInRange := by
  intro order src gs htext g hg
  rw [assembleText] at htext
  split at htext
  · rename_i a hlines
    cases htext
    have hstart : AsmState.start.BasesOk := fun _ h => absurd h List.not_mem_nil
    have hok : g.baseOk = true := asmLines_keeps AsmState.BasesOk.asmLine hstart hlines g hg
    rw [Segment.baseOk] at hok
    cases hcls : g.cls <;>
      simpa only [hcls, SegClass.inRange, Bool.and_eq_true, decide_eq_true_eq] using hok
  · cases htext

/-- Every non-empty segment ends at or below its class's mark. -/
def AsmState.MarksOk (a : AsmState) : Prop :=
  ∀ g ∈ a.segments, g.bytes ≠ [] → g.base.toNat + g.bytes.length ≤ a.mark g.cls

/-- Appending bytes lowers no mark (R82). -/
theorem AsmState.mark_le_append (a : AsmState) (g : Segment) (bs : List Byte) (c : SegClass) :
    a.mark c ≤ (a.append g bs).mark c := by
  obtain ⟨cls, base, bytes⟩ := g
  cases cls <;> cases c <;> simp [AsmState.append, AsmState.raiseMark, AsmState.mark]

/-- Appending bytes raises the class's mark to the segment's new end (R82). -/
theorem AsmState.stop_le_mark_append (a : AsmState) (g : Segment) (bs : List Byte) :
    g.base.toNat + (g.bytes ++ bs).length ≤ (a.append g bs).mark g.cls := by
  obtain ⟨cls, base, bytes⟩ := g
  cases cls <;> exact Nat.le_max_right _ _

/-- A line that assembles keeps the marks at or above the segments' ends: a new segment is empty, and appending bytes
raises the mark to the new end. -/
theorem AsmState.MarksOk.asmLine {order : ByteOrder} {l : Text} {a a' : AsmState} (h : a.MarksOk)
    (hl : asmLine order l a = .ok a') : a'.MarksOk := by
  rcases asmLine_ok hl with rfl | ⟨c, b, hopen⟩ | ⟨n, rfl⟩ | ⟨g, bs, hcur, rfl⟩
  · exact h
  · obtain ⟨-, rfl⟩ := AsmState.openAt_ok hopen
    exact List.forall_mem_append.mpr ⟨h, List.forall_mem_singleton.mpr fun hne => absurd rfl hne⟩
  · exact h
  · rw [AsmState.MarksOk, AsmState.segments_of_cur hcur, List.forall_mem_append] at h
    rw [AsmState.MarksOk, AsmState.segments_append, List.forall_mem_append, List.forall_mem_singleton]
    exact ⟨fun g' hg' hne => (h.1 g' hg' hne).trans (a.mark_le_append g bs g'.cls),
      fun _ => a.stop_le_mark_append g bs⟩

/-- Settles O56: the start has no segment, and every line keeps the marks above the segments' ends. -/
theorem highWaterMarkCoversEmittedBytes : Obligations.HighWaterMarkCoversEmittedBytes := fun _ _ _ hlines =>
  asmLines_keeps (P := AsmState.MarksOk) AsmState.MarksOk.asmLine (fun _ h => absurd h List.not_mem_nil) hlines

end Sys2Proof.Machine

end

section

/-! ## One instruction line, from its text to its step (R86 to R90, R146) -/

namespace Sys2Proof.Machine

/-! ### Splitting and trimming text -/

/-- A text without separators is one piece. -/
theorem splitWhere_of_forall_not {p : Char → Bool} {t : Text} (h : ∀ c ∈ t, p c = false) : splitWhere p t = [t] := by
  induction t with
  | nil => rfl
  | cons c t ih =>
    rw [List.forall_mem_cons] at h
    obtain ⟨hc, ht⟩ := h
    simp [splitWhere, hc, ih ht]

/-- A text up to its first separator is the first piece. -/
theorem splitWhere_append_cons {p : Char → Bool} {t : Text} {c : Char} (h : ∀ d ∈ t, p d = false) (hc : p c = true)
    (u : Text) : splitWhere p (t ++ c :: u) = t :: splitWhere p u := by
  induction t with
  | nil => simp [splitWhere, hc]
  | cons d t ih =>
    rw [List.forall_mem_cons] at h
    obtain ⟨hd, ht⟩ := h
    simp [splitWhere, hd, ih ht]

/-- Trimming leaves a text that neither starts nor ends with white space. -/
theorem trim_eq_self {t : Text} (hhead : ∀ c ∈ t.head?, isBlank c = false)
    (hlast : ∀ c ∈ t.getLast?, isBlank c = false) :
    trim t = t := by
  have drop {u : Text} (hu : ∀ c ∈ u.head?, isBlank c = false) : u.dropWhile isBlank = u := by
    cases u with
    | nil => rfl
    | cons c u => exact List.dropWhile_cons_of_neg (by simp [hu c rfl])
  rw [trim, drop hhead, drop (by rwa [List.head?_reverse]), List.reverse_reverse]

/-- Trimming drops a blank at the start. -/
theorem trim_blank_cons (t : Text) : trim (' ' :: t) = trim t := rfl

/-- A text before a blank is the first token. -/
theorem tokens_append_blank {t : Text} (hne : t ≠ []) (h : ∀ c ∈ t, isBlank c = false) (u : Text) :
    tokens (t ++ ' ' :: u) = t :: tokens u := by
  rw [tokens, splitWhere_append_cons h rfl, List.filter_cons_of_pos (by simpa using hne), tokens]

/-- A text before a comma is the first operand. -/
theorem operandPieces_append_comma {t : Text} (h : ∀ c ∈ t, (c == ',') = false) (u : Text) :
    operandPieces (t ++ ',' :: u) = trim t :: operandPieces u := by
  rw [operandPieces, splitWhere_append_cons h rfl, List.map_cons, operandPieces]

/-- A text without a comma is one operand. -/
theorem operandPieces_of_forall_not_comma {t : Text} (h : ∀ c ∈ t, (c == ',') = false) : operandPieces t = [trim t] := by
  rw [operandPieces, splitWhere_of_forall_not h, List.map_singleton]

/-! ### The text of an instruction line -/

/-- The characters that mean something between the tokens and the lines of a source text (R75, R77, R86). -/
def separators : List Char := [' ', '\t', '\r', ',', '#', '\n']

/-- The three operands of an instruction line as text. -/
def operandText (rd rs rt : Reg) : Text :=
  Claims.numericName rd ++ ',' :: ' ' :: (Claims.numericName rs ++ ',' :: ' ' :: Claims.numericName rt)

/-- An instruction line as text. -/
def instructionLine (m : Mnemonic) (rd rs rt : Reg) : Text := Claims.mnemonicText m ++ ' ' :: operandText rd rs rt

theorem oneInstructionSource_eq (m : Mnemonic) (rd rs rt : Reg) :
    Claims.oneInstructionSource m rd rs rt = ['.', 't', 'e', 'x', 't'] ++ '\n' :: instructionLine m rd rs rt := by
  simp [Claims.oneInstructionSource, instructionLine, operandText]

theorem parseMnemonic_mnemonicText (m : Mnemonic) : parseMnemonic (Claims.mnemonicText m) = some m := by
  cases m <;> rfl

theorem mnemonicText_not_separator (m : Mnemonic) : ∀ c ∈ Claims.mnemonicText m, c ∉ separators := by
  cases m <;> simp [Claims.mnemonicText, separators]

theorem parseRegister_numericName : ∀ r : Reg, parseRegister (Claims.numericName r) = some r := by decide

theorem length_numericName_le : ∀ r : Reg, (Claims.numericName r).length ≤ 3 := by decide

/-- A numeric register name is a dollar sign and digits, so no separator stands in it. -/
theorem numericName_not_separator (r : Reg) : ∀ c ∈ Claims.numericName r, c ∉ separators := by
  have hdigit : ∀ c ∈ separators, c.isDigit = false := by simp [separators]
  rw [Claims.numericName, List.forall_mem_cons]
  refine ⟨by decide, fun c hc hsep => ?_⟩
  have := Nat.isDigit_of_mem_toDigits (by decide) (by decide) hc
  exact Bool.false_ne_true ((hdigit c hsep).symm.trans this)

/-- A character that is no separator is no white space. -/
theorem isBlank_eq_false {c : Char} (h : c ∉ separators) : isBlank c = false := by
  simp only [separators, List.mem_cons, not_or] at h
  simp [isBlank, h]

theorem trim_numericName (r : Reg) : trim (Claims.numericName r) = Claims.numericName r :=
  trim_eq_self (fun c hc => isBlank_eq_false (numericName_not_separator r c (List.mem_of_mem_head? hc)))
    (fun c hc => isBlank_eq_false (numericName_not_separator r c (List.mem_of_mem_getLast? hc)))

/-- The characters of an instruction line are those of its tokens, blanks and commas. -/
theorem mem_instructionLine {m : Mnemonic} {rd rs rt : Reg} {c : Char} (h : c ∈ instructionLine m rd rs rt) :
    c ∉ separators ∨ c = ' ' ∨ c = ',' := by
  simp only [instructionLine, operandText, List.mem_append, List.mem_cons] at h
  have hm := mnemonicText_not_separator m c
  have hr (r : Reg) := numericName_not_separator r c
  tauto

/-- No comment starts and no line ends within an instruction line. -/
theorem ne_of_mem_instructionLine {m : Mnemonic} {rd rs rt : Reg} {c : Char} (h : c ∈ instructionLine m rd rs rt) :
    c ≠ '#' ∧ c ≠ '\n' := by
  rcases mem_instructionLine h with hc | rfl | rfl
  · simp only [separators, List.mem_cons, not_or] at hc
    simp [hc]
  · decide
  · decide

/-- An instruction line has no comment, and neither starts nor ends with white space. -/
theorem stripLine_instructionLine (m : Mnemonic) (rd rs rt : Reg) :
    stripLine (instructionLine m rd rs rt) = instructionLine m rd rs rt := by
  have hcomment : (instructionLine m rd rs rt).takeWhile (fun c => c != '#') = instructionLine m rd rs rt := by
    rw [List.takeWhile_eq_self_iff]
    exact fun c hc => bne_iff_ne.mpr (ne_of_mem_instructionLine hc).1
  rw [stripLine, hcomment]
  refine trim_eq_self (fun c hc => ?_) (fun c hc => ?_)
  · cases m <;> cases hc <;> rfl
  · have hend : instructionLine m rd rs rt = (Claims.mnemonicText m ++ ' ' :: (Claims.numericName rd ++
        ',' :: ' ' :: (Claims.numericName rs ++ [',', ' ']))) ++ Claims.numericName rt := by
      simp [instructionLine, operandText]
    have hne : Claims.numericName rt ≠ [] := List.cons_ne_nil _ _
    rw [hend, List.getLast?_append_of_ne_nil _ hne] at hc
    exact isBlank_eq_false (numericName_not_separator rt c (List.mem_of_mem_getLast? hc))

theorem sourceLines_oneInstructionSource (m : Mnemonic) (rd rs rt : Reg) :
    sourceLines (Claims.oneInstructionSource m rd rs rt) = [['.', 't', 'e', 'x', 't'], instructionLine m rd rs rt] := by
  rw [oneInstructionSource_eq, sourceLines, splitWhere_append_cons (by simp) rfl, splitWhere_of_forall_not]
  intro c hc
  exact beq_false_of_ne (ne_of_mem_instructionLine hc).2

theorem operandPieces_operandText (rd rs rt : Reg) :
    operandPieces (' ' :: operandText rd rs rt) =
      [Claims.numericName rd, Claims.numericName rs, Claims.numericName rt] := by
  have hcomma (r : Reg) : ∀ c ∈ ' ' :: Claims.numericName r, (c == ',') = false := by
    refine List.forall_mem_cons.mpr ⟨rfl, fun c hc => beq_false_of_ne ?_⟩
    rintro rfl
    exact numericName_not_separator r ',' hc (by decide)
  have htrim (r : Reg) : trim (' ' :: Claims.numericName r) = Claims.numericName r :=
    (trim_blank_cons _).trans (trim_numericName r)
  calc operandPieces (' ' :: operandText rd rs rt)
      = operandPieces ((' ' :: Claims.numericName rd) ++ ',' :: ((' ' :: Claims.numericName rs) ++
          ',' :: (' ' :: Claims.numericName rt))) := rfl
    _ = [Claims.numericName rd, Claims.numericName rs, Claims.numericName rt] := by
      rw [operandPieces_append_comma (hcomma rd), operandPieces_append_comma (hcomma rs),
        operandPieces_of_forall_not_comma (hcomma rt), htrim, htrim, htrim]

theorem length_instructionLine_le (m : Mnemonic) (rd rs rt : Reg) :
    (instructionLine m rd rs rt).length ≤ Config.lineLimit := by
  have hm : (Claims.mnemonicText m).length ≤ 3 := by cases m <;> decide
  have hd := length_numericName_le rd
  have hs := length_numericName_le rs
  have ht := length_numericName_le rt
  simp only [instructionLine, operandText, List.length_append, List.length_cons, Config.lineLimit]
  omega

/-- A line whose first token is a mnemonic is an instruction line (R77). -/
theorem asmDispatch_mnemonicText (order : ByteOrder) (m : Mnemonic) (args : List Text) (rest : Text) (a : AsmState) :
    asmDispatch order (Claims.mnemonicText m) args rest a = asmInstr order (Claims.mnemonicText m) rest a := by
  cases m <;> rfl

/-- An instruction line appends the bytes of its instruction to the current segment (R89). -/
theorem asmLine_instructionLine (order : ByteOrder) (m : Mnemonic) (rd rs rt : Reg) {a : AsmState} {g : Segment}
    (hcur : a.cur = some g) :
    asmLine order (instructionLine m rd rs rt) a = .ok (a.append g (encodeBytes order (m.build ⟨rd, rs, rt, 0⟩))) := by
  have hne : Claims.mnemonicText m ≠ [] := by cases m <;> decide
  have htokens : tokens (instructionLine m rd rs rt) = Claims.mnemonicText m :: tokens (operandText rd rs rt) :=
    tokens_append_blank hne (fun c hc => isBlank_eq_false (mnemonicText_not_separator m c hc)) _
  have hrest : (instructionLine m rd rs rt).drop (Claims.mnemonicText m).length = ' ' :: operandText rd rs rt :=
    List.drop_left
  have hoperands : parseOperands [Claims.numericName rd, Claims.numericName rs, Claims.numericName rt] =
      .ok ⟨rd, rs, rt, 0⟩ := by
    simp only [parseOperands, parseRegister_numericName]
  rw [asmLine, if_neg (Nat.not_lt.mpr (length_instructionLine_le m rd rs rt)), stripLine_instructionLine]
  simp only [htokens, hrest, asmDispatch_mnemonicText, asmInstr, parseMnemonic_mnemonicText,
    operandPieces_operandText, hoperands, hcur]

/-- The source of one instruction assembles to one TEXT segment at the default base address with its bytes (R80, R90). -/
theorem assembleText_oneInstructionSource (order : ByteOrder) (m : Mnemonic) (rd rs rt : Reg) :
    assembleText order (Claims.oneInstructionSource m rd rs rt) =
      .ok [⟨.text, 0x00400000#32, encodeBytes order (m.build ⟨rd, rs, rt, 0⟩)⟩] := by
  have hopen : asmLine order ['.', 't', 'e', 'x', 't'] AsmState.start =
      .ok { AsmState.start with cur := some ⟨.text, 0x00400000#32, []⟩ } := rfl
  rw [assembleText, sourceLines_oneInstructionSource, asmLines, hopen]
  simp only [asmLines]
  rw [asmLine_instructionLine order m rd rs rt rfl]
  rfl

/-- A segment of one word that fits is loaded as that word alone (R37). -/
theorem loadMemory_one_word (order : ByteOrder) (w : Word) {cls : SegClass} {base : Word}
    (hfits : base.toNat + 4 ≤ Config.addressSpace) :
    loadMemory [⟨cls, base, splitWord order w⟩] = .ok (Memory.writeWord [] order base.toNat w) := by
  refine loadMemory_ok_iff.mpr ⟨?_, rfl⟩
  have : Segment.fits ⟨cls, base, splitWord order w⟩ = true := (Segment.fits_iff _).mpr (by simpa using hfits)
  simp [programWf, segmentsDisjoint, this]

/-- Settles O57: the loaded word is the instruction's, so it is fetched and decoded at the segment's base. -/
theorem assembledInstructionRuns : Obligations.AssembledInstructionRuns := by
  intro order m rd rs rt s
  have hroom : (0x00400000#32).toNat + 4 ≤ Config.addressSpace := by decide
  refine ⟨_, assemble_of (assembleText_oneInstructionSource order m rd rs rt) (loadMemory_one_word order _ hroom) rfl,
    rfl, ?_⟩
  refine step_eq_exec (show executablePc 0x00400000#32 = true by decide) ?_
  exact (congrArg decode (Memory.readWord_writeWord order _ rfl hroom)).trans (decode_encode _)

end Sys2Proof.Machine

end
